-- ==== Sys2Proof/Word.lean ====
section
/-! DEFINITION. The value types of the block: a BitVector(N) of R13 is Lean's `BitVec N` (index 0 the
least-significant bit, R9, R37); a character lane of the text port is a byte (R47); a text is the list of
its characters, leftmost first (R38). -/

namespace Sys2Proof

/-- One lane of the text port `TXT` (R47, R107). -/
abbrev Byte := BitVec 8

/-- The operation-select word `OP[4:0]` (R46). -/
abbrev OpWord := BitVec 5

/-- A text, leftmost character first (R38). -/
abbrev Text := List Char

end Sys2Proof
end

