-- ==== Sys2Proof/Config.lean ====
section
/-! DEFINITION. What is fixed when an instance of the block is made (R7, R133), and the one free value the
spec leaves: what an output port carries while the inputs change (R131, R134, U14). -/

namespace Sys2Proof.Config

/-- The parameters of one instance of the block (R7).
`n` is the width N of every operand; `kw` the width of the shift-count port `K`; `iw` the width of the index
ports `HI` and `LO`; `ww` the width of the result-width port `YW`; `tmax` the number of byte lanes of `TXT`;
`tlw` the width of `TLEN`, which R47 calls "enough for `TMAX`" (log entry 8).
Which values are legal is `Params.wellFormed` (WellFormed.lean). -/
structure Params where
  n    : Nat
  kw   : Nat
  iw   : Nat
  ww   : Nat
  tmax : Nat
  tlw  : Nat
deriving DecidableEq, Repr

/-- The output ports of R47. -/
inductive OutPort
  | y | yw | uovf | sovf | err | einfo | txt | tlen
deriving DecidableEq, Repr

/-- FREE VALUE (log entry 6): the wires of an output port of the given width at a moment when the inputs have
changed and the host may not yet sample (R131, R134; U14: "any value"). It has no body: nothing can be proved
of it. -/
opaque unsettled (port : OutPort) (width moment : Nat) : BitVec width

end Sys2Proof.Config
end

