-- ==== Sys2Proof/Machine/Numeral.lean ====
section
/-! DEFINITION. The numerals of the format operations (R98, R99), the digit count of the hexadecimal fields and
the text lengths of R106. -/

namespace Sys2Proof.Machine

/-- The character of one decimal or hexadecimal digit, `'0'`-`'9'` then lowercase `'a'`-`'f'` (R98, R99). -/
def digitChar (d : Nat) : Char :=
  if d < 10 then Char.ofNat (48 + d) else Char.ofNat (87 + d)

/-- Decimal digits of `x` put before `acc`, most significant first; `fuel > x` is always enough. -/
def decDigits : (fuel x : Nat) → (acc : Text) → Text
  | 0, _, acc => acc
  | fuel + 1, x, acc =>
    if x < 10 then digitChar x :: acc
    else decDigits fuel (x / 10) (digitChar (x % 10) :: acc)

/-- `dec(x)` (R98): the decimal numeral of `x`, most significant digit first, no leading zero, `"0"` for 0. -/
def dec (x : Nat) : Text := decDigits (x + 1) x []

/-- `hex_D(x)` (R99): exactly `D` lowercase hexadecimal digits, most significant first, zero-padded. -/
def hex : (D x : Nat) → Text
  | 0, _ => []
  | D + 1, x => digitChar (x / 16 ^ D % 16) :: hex D x

/-- `D = ceil(N / 4)`, the digit count of the hexadecimal fields (R99). -/
def hexDigits (n : Nat) : Nat := (n + 3) / 4

/-- `digits(x) = len(dec(x))` (R106). -/
def digits (x : Nat) : Nat := (dec x).length

/-- `LBIN(N) = N + ceil(N / 4) - 1`, the length of the binary field (R104). -/
def lbin (n : Nat) : Nat := n + hexDigits n - 1

/-- `LFMT(N)`, the bound on the length of the combined form (R106), term by term as the rule writes it. -/
def lfmt (n : Nat) : Nat :=
  5 + digits n + 3 + lbin n + 7 + digits (2 ^ n - 1) + 1 + (1 + digits (2 ^ (n - 1))) + 7
    + (2 + hexDigits n) + 1 + (3 + hexDigits n) + 2

end Sys2Proof.Machine
end

