-- ==== Sys2Proof/Syntax.lean ====
section
/-! DEFINITION. The seventeen operations of R48, one constructor per row of the opcode table. The operands are
ports, not fields of the operation select (R46, R51), so a constructor carries nothing. -/

namespace Sys2Proof

/-- The operations of the block (R48). -/
inductive Instr
  | add | sub | mul
  | and | or | xor | not
  | shl | shr | sar | slice
  | bin | udec | sdec | uhex | shex | fmt
deriving DecidableEq, Repr

/-- The eight hardware units of R1 and the part of the Formatter outside them (R48, column "unit"). -/
inductive HardwareUnit
  | carryLookaheadAdder | twosComplementSubtractor | unsignedMultiplier
  | bitwiseOperatorSet | barrelShifter | bitSliceMux
  | binaryToDecimalConverter | hexadecimalFormatter | formatter
deriving DecidableEq, Repr

/-- The unit that computes an operation (R2, R48). -/
def Instr.hardwareUnit : Instr → HardwareUnit
  | .add => .carryLookaheadAdder
  | .sub => .twosComplementSubtractor
  | .mul => .unsignedMultiplier
  | .and => .bitwiseOperatorSet
  | .or => .bitwiseOperatorSet
  | .xor => .bitwiseOperatorSet
  | .not => .bitwiseOperatorSet
  | .shl => .barrelShifter
  | .shr => .barrelShifter
  | .sar => .barrelShifter
  | .slice => .bitSliceMux
  | .bin => .formatter
  | .udec => .binaryToDecimalConverter
  | .sdec => .binaryToDecimalConverter
  | .uhex => .hexadecimalFormatter
  | .shex => .hexadecimalFormatter
  | .fmt => .formatter

end Sys2Proof
end

