-- ==== Sys2Proof/WellFormed.lean ====
section
/-! DEFINITION. What must hold before the rules apply: the constraints on an instance's parameters (R7, R20,
R133) and the legal slice range (R17). An operation of R48 is a name without operand fields (R46), so there is
no ill-formed instruction to refuse. -/

namespace Sys2Proof

open Sys2Proof.Machine in
/-- The constraints of R7 on an instance's parameters: `N >= 1` (also R20), `KW >= 1`, `IW >= 1`, `2^IW >= N`,
`2^WW > N`, `TMAX >= LFMT(N)`, and a `TLEN` port "enough for `TMAX`" (R47). -/
def Config.Params.wellFormed (p : Config.Params) : Bool :=
  decide (1 ≤ p.n) && decide (1 ≤ p.kw) && decide (1 ≤ p.iw) && decide (p.n ≤ 2 ^ p.iw)
    && decide (p.n < 2 ^ p.ww) && decide (lfmt p.n ≤ p.tmax) && decide (p.tmax < 2 ^ p.tlw)

/-- The width of a legal instance is positive (R13, R20). -/
theorem Config.Params.width_pos {p : Config.Params} (h : p.wellFormed = true) : 1 ≤ p.n := by
  simp only [Config.Params.wellFormed, Bool.and_eq_true, decide_eq_true_eq] at h
  omega

/-- A SliceRange `(hi, lo)` of R17: `0 <= lo <= hi < width`, over the integers as the source's calls have it. -/
def sliceRangeWellFormed (width : Nat) (hi lo : Int) : Bool :=
  decide (0 ≤ lo) && decide (lo ≤ hi) && decide (hi < width)

end Sys2Proof
end

