-- ==== Sys2Proof/Decode.lean ====
section
/-! DEFINITION. The decoder of R48 and R49, total on every operation-select word, and after it the encoder,
written from the class and function fields of R46. -/

namespace Sys2Proof

/-- Why a word is not an operation. -/
inductive DecodeError
  /-- One of the fifteen reserved `OP` values (R49). -/
  | reserved (op : OpWord)
deriving DecidableEq, Repr

/-- The opcode map of R48: the operation an `OP` value selects, or the refusal of a reserved value (R49). -/
def decode (op : OpWord) : Except DecodeError Instr :=
  match op with
  | 0b00000#5 => .ok .add
  | 0b00001#5 => .ok .sub
  | 0b00010#5 => .ok .mul
  | 0b01000#5 => .ok .and
  | 0b01001#5 => .ok .or
  | 0b01010#5 => .ok .xor
  | 0b01011#5 => .ok .not
  | 0b10000#5 => .ok .shl
  | 0b10001#5 => .ok .shr
  | 0b10010#5 => .ok .sar
  | 0b10011#5 => .ok .slice
  | 0b11000#5 => .ok .bin
  | 0b11001#5 => .ok .udec
  | 0b11010#5 => .ok .sdec
  | 0b11011#5 => .ok .uhex
  | 0b11100#5 => .ok .shex
  | 0b11101#5 => .ok .fmt
  | _ => .error (.reserved op)

/-- `OP[4:3]`: `00` arithmetic, `01` bitwise, `10` shift and slice, `11` format (R46). -/
def Instr.unitClass : Instr → BitVec 2
  | .add => 0b00#2
  | .sub => 0b00#2
  | .mul => 0b00#2
  | .and => 0b01#2
  | .or => 0b01#2
  | .xor => 0b01#2
  | .not => 0b01#2
  | .shl => 0b10#2
  | .shr => 0b10#2
  | .sar => 0b10#2
  | .slice => 0b10#2
  | .bin => 0b11#2
  | .udec => 0b11#2
  | .sdec => 0b11#2
  | .uhex => 0b11#2
  | .shex => 0b11#2
  | .fmt => 0b11#2

/-- `OP[2:0]`: the operation inside its class (R46, R48). -/
def Instr.func : Instr → BitVec 3
  | .add => 0#3
  | .sub => 1#3
  | .mul => 2#3
  | .and => 0#3
  | .or => 1#3
  | .xor => 2#3
  | .not => 3#3
  | .shl => 0#3
  | .shr => 1#3
  | .sar => 2#3
  | .slice => 3#3
  | .bin => 0#3
  | .udec => 1#3
  | .sdec => 2#3
  | .uhex => 3#3
  | .shex => 4#3
  | .fmt => 5#3

/-- The `OP` word of an operation: its class in bits 4..3, its function in bits 2..0 (R46). -/
def encode (i : Instr) : OpWord := i.unitClass ++ i.func

/-- The wires of `OP` for an instruction word whose low `nbits` bits are `w` and whose other bits are 0: the
five bits under the decoder's mask `0x1F` (R48; log entry 7). -/
def opOfWord (nbits w : Nat) : OpWord := BitVec.ofNat 5 (w % 2 ^ nbits)

/-- The instruction the decoder reads from a word of `spec/opcode_table.json`; `none` for a reserved value. -/
def decodeTableWord (nbits w : Nat) : Option Instr :=
  match decode (opOfWord nbits w) with
  | .ok i => some i
  | .error _ => none

end Sys2Proof
end

