-- ==== Sys2Proof/Machine/State.lean ====
section
/-! DEFINITION. What the machine holds. The block has no register, memory, program counter or hidden state (R27
to R34); a transaction is about its ports, so State is the instance's parameters (R7), the values on the input
ports and the values on the output ports (R47), and one field of the model's own, `moment` (log entries 1, 6). -/

namespace Sys2Proof.Machine

/-- The input ports of R47, as the host drives them. -/
structure Inputs (p : Config.Params) where
  op : OpWord
  a  : BitVec p.n
  b  : BitVec p.n
  k  : BitVec p.kw
  hi : BitVec p.iw
  lo : BitVec p.iw
deriving DecidableEq, Repr

/-- The output ports of R47. The two flags are single wires (R29). -/
structure Outputs (p : Config.Params) where
  y     : BitVec p.n
  yw    : BitVec p.ww
  uovf  : Bool
  sovf  : Bool
  err   : BitVec 3
  einfo : BitVec 2
  txt   : Vector Byte p.tmax
  tlen  : BitVec p.tlw
deriving DecidableEq, Repr

/-- The instance, its input ports, its output ports, and `moment`, which counts how often the host has presented
inputs and only indexes the free value of unsettled outputs (log entry 6). -/
structure State where
  params : Config.Params
  inp    : Inputs params
  out    : Outputs params
  moment : Nat
deriving DecidableEq, Repr

/-- Reasons to stop with a fault. No operation and no step raises one (R127, R136). -/
inductive Fault
  /-- Raised by the host-side wiring (`State.connectA`, `State.connectB`, `State.drive`) when a value of another
  width is put on a port of `expected` wires (R75, R113; log entry 10). Safe: the block itself never sees such a
  value. -/
  | widthMismatch (expected actual : Nat)
  /-- Raised by the host-side wiring (`State.drive`) when a shift count or an index has more bits than its port has
  wires (R47, R51; log entry 18). Safe: the block itself never sees such a number. -/
  | numberTooWide (wires number : Nat)
deriving DecidableEq, Repr

/-- Reasons to refuse. -/
inductive Refusal
  /-- Raised only by an arm of `exec` whose instruction has no meaning yet; no arm does. Safe. -/
  | notModelled (mnemonic : String)
  /-- Raised by `step` and by the host-side wiring when the instance's parameters break R7: the spec has no such instance ("a model refuses
  to instantiate it", R20; log entry 4). Safe. -/
  | illegalParameters
  /-- Raised by the host-side wiring when an output is wired straight back to an input of the same instance,
  which the spec gives no meaning (R135, U17: "refuse"; log entry 12). Safe. -/
  | combinationalLoop
deriving DecidableEq, Repr

/-- The parameters of the state at reset (DESIGN CHOICE, log entry 2): the width of the source's worked example. -/
def State.resetParams : Config.Params :=
  { n := 16, kw := 8, iw := 8, ww := 5, tmax := 71, tlw := 7 }

/-- The machine right after power-up. There is nothing to reset (R33, R131): every input port is taken as 0
(DESIGN CHOICE, log entry 3), and the outputs are the function of those inputs (R131), ADD of 0 and 0. -/
def State.reset : State :=
  { params := State.resetParams
    inp := { op := 0#5, a := 0#16, b := 0#16, k := 0#8, hi := 0#8, lo := 0#8 }
    out := { y := 0#16, yw := 16#5, uovf := false, sovf := false, err := 0#3, einfo := 0#2
             txt := Vector.replicate 71 0#8, tlen := 0#7 }
    moment := 0 }

end Sys2Proof.Machine
end

