-- ==== Sys2Proof/Machine/Operands.lean ====
section
/-! DEFINITION. Reading a value (R9: `uval`, `sval`, `bv_N`, `sign`), building one bit by bit, and the operand
forms of the operations: the ports `A`, `B`, `K`, `HI`, `LO` (R47, R51). -/

namespace Sys2Proof.Machine

variable {n : Nat}

/-- `uval(a)` (R9): the unsigned magnitude, in `[0, 2^N - 1]`. -/
def uval (a : BitVec n) : Nat := a.toNat

/-- `sign(a) = a[N-1]` (R9). -/
def sign (a : BitVec n) : Bool := a.getLsbD (n - 1)

/-- `sval(a) = uval(a) - 2^N * a[N-1]` (R9). -/
def sval (a : BitVec n) : Int := (uval a : Int) - 2 ^ n * (sign a).toNat

/-- `bv_N(x)` (R9): the value of width `N` with `uval = x mod 2^N`. -/
def bv (n : Nat) (x : Int) : BitVec n := BitVec.ofInt n x

/-- The value of width `n` whose bit `i` is `f i`, for `0 <= i < n` (R13). -/
def ofBits : (n : Nat) → (f : Nat → Bool) → BitVec n
  | 0, _ => BitVec.nil
  | n + 1, f => BitVec.cons (f n) (ofBits n f)

/-- Port `A`: first operand, minuend, value to shift, slice source, value to render (R47). -/
def opA (s : State) : BitVec s.params.n := s.inp.a

/-- Port `B`: second operand, subtrahend (R47). -/
def opB (s : State) : BitVec s.params.n := s.inp.b

/-- The shift count `k = uval(K)` (R51). -/
def count (s : State) : Nat := uval s.inp.k

/-- The slice upper index `hi = uval(HI)` (R51). -/
def upper (s : State) : Nat := uval s.inp.hi

/-- The slice lower index `lo = uval(LO)` (R51). -/
def lower (s : State) : Nat := uval s.inp.lo

end Sys2Proof.Machine
end

