-- ==== Sys2Proof/Machine/Flags.lean ====
section
/-! DEFINITION. The two overflow outputs of ADD, SUB and MUL (R29, R64, R68, R72). Each is a function of the
operands, with `r` the wrapped result of the same operation (R18). -/

namespace Sys2Proof.Machine

variable {n : Nat}

/-- ADD, `UOVF <- (S >= 2^N)`: the carry out of bit `N-1` (R64). -/
def addUovf (a b : BitVec n) : Bool := decide (2 ^ n ≤ uval a + uval b)

/-- ADD, `SOVF <- (sign(a) = sign(b)) and (sign(r) != sign(a))` (R64). -/
def addSovf (a b r : BitVec n) : Bool := (sign a == sign b) && (sign r != sign a)

/-- SUB, `UOVF <- (uval(a) < uval(b))`: a borrow occurred (R68). -/
def subUovf (a b : BitVec n) : Bool := decide (uval a < uval b)

/-- SUB, `SOVF <- (sign(a) != sign(b)) and (sign(r) != sign(a))` (R68, R70). -/
def subSovf (a b r : BitVec n) : Bool := (sign a != sign b) && (sign r != sign a)

/-- MUL, `UOVF <- (P >= 2^N)`: some bit of `P[2N-1:N]` is 1 (R72). -/
def mulUovf (a b : BitVec n) : Bool := decide (2 ^ n ≤ uval a * uval b)

/-- MUL, `SOVF <- (sval(r) != sval(a) * sval(b))` (R72). -/
def mulSovf (a b r : BitVec n) : Bool := decide (sval r ≠ sval a * sval b)

end Sys2Proof.Machine
end

