-- ==== Sys2Proof/Machine/Errors.lean ====
section
/-! DEFINITION. The error kinds of R112, their details, and their codes on `ERR` and `EINFO` (R116, R120). -/

namespace Sys2Proof.Machine

/-- The six error kinds of R112. The block itself raises `invalidRange` (SLICE) and `illegalOp` (a reserved
`OP`) and no other (R127); the rest are host-side. -/
inductive ErrorKind
  /-- Operands, or a source sequence for construction, do not match the expected width (R113). -/
  | widthMismatch (expected actual : Nat)
  /-- Parsed text has a different significant-digit count than `width` (R58, R114). -/
  | lengthMismatch (expected actual : Nat)
  /-- Parsed text contains a character outside the accepted set, at a 0-based significant position (R57, R115). -/
  | invalidDigit (character : Char) (position : Nat)
  /-- A slice request violates `0 <= lo <= hi < width`, with the bounds violated: `hi < lo`, `hi >= N`, and, at
  the value level only, a negative index (R93, R116; log entry 9). -/
  | invalidRange (hiBelowLo hiNotBelowWidth negative : Bool)
  /-- A direct bit index falls outside `[0, width)` (R22, R117). -/
  | indexOutOfBounds (index : Int)
  /-- The operation select is a reserved value (R119). -/
  | illegalOp
deriving DecidableEq, Repr

/-- The code of an error kind on `ERR[2:0]` (R120). Code 0 is "no error" and code 7 is never driven. -/
def ErrorKind.code : ErrorKind → BitVec 3
  | .widthMismatch _ _ => 1#3
  | .lengthMismatch _ _ => 2#3
  | .invalidDigit _ _ => 3#3
  | .invalidRange _ _ _ => 4#3
  | .indexOutOfBounds _ => 5#3
  | .illegalOp => 6#3

/-- The detail on `EINFO[1:0]`: for `InvalidRange`, `EINFO[0] = (hi < lo)` and `EINFO[1] = (hi >= N)`; 00 for
every other kind (R116). -/
def ErrorKind.info : ErrorKind → BitVec 2
  | .invalidRange hiBelowLo hiNotBelowWidth _ => BitVec.ofBool hiNotBelowWidth ++ BitVec.ofBool hiBelowLo
  | .widthMismatch _ _ => 0#2
  | .lengthMismatch _ _ => 0#2
  | .invalidDigit _ _ => 0#2
  | .indexOutOfBounds _ => 0#2
  | .illegalOp => 0#2

end Sys2Proof.Machine
end

