-- ==== Sys2Proof/Machine/Ops.lean ====
section
/-! DEFINITION. The shared operations on the ports: what the outputs carry by default (R50), driving a value
(R50, R95), driving a text (R107), raising an error (R118, R121: the block's only exception entry, which saves
nothing and from which nothing returns, R124), and the host presenting new inputs (R11, R134). -/

namespace Sys2Proof.Machine

/-- Every output at 0: the default of R50 for an output an operation does not produce, and the values of R118
beside an error. -/
def Outputs.idle (p : Config.Params) : Outputs p :=
  { y := 0, yw := 0, uovf := false, sovf := false, err := 0, einfo := 0
    txt := Vector.replicate p.tmax 0, tlen := 0 }

/-- The 8-bit ASCII code of a character (R107). -/
def charCode (c : Char) : Byte := BitVec.ofNat 8 c.toNat

/-- The lanes of `TXT` for a text: lane `j` is the code of character `j`, and 0 from the text's length up (R107). -/
def textLanes (tmax : Nat) (t : Text) : Vector Byte tmax :=
  Vector.ofFn fun j => match t[j.val]? with
    | some c => charCode c
    | none => 0

/-- The outputs that carry a value of width `w` on `Y` and `YW` with its two flags; no error, no text (R50, R95). -/
def Outputs.ofValue {p : Config.Params} (y : BitVec p.n) (w : Nat) (uovf sovf : Bool) : Outputs p :=
  { Outputs.idle p with y := y, yw := BitVec.ofNat p.ww w, uovf := uovf, sovf := sovf }

/-- The outputs that carry a text on `TXT` and `TLEN`; no error, no value, flags 0 (R50, R107). -/
def Outputs.ofText (p : Config.Params) (t : Text) : Outputs p :=
  { Outputs.idle p with txt := textLanes p.tmax t, tlen := BitVec.ofNat p.tlw t.length }

/-- The outputs of an operation that raises an error: `ERR` the code, `EINFO` the detail, every other output 0
(R118). -/
def Outputs.ofError (p : Config.Params) (e : ErrorKind) : Outputs p :=
  { Outputs.idle p with err := e.code, einfo := e.info }

/-- Drive a value (R50, R95). -/
def driveValue (s : State) (y : BitVec s.params.n) (w : Nat) (uovf sovf : Bool) : State :=
  { s with out := Outputs.ofValue y w uovf sovf }

/-- Drive a text (R50, R107). -/
def driveText (s : State) (t : Text) : State := { s with out := Outputs.ofText s.params t }

/-- `raise <Error>(info)` (R10, R118): the error on the outputs and nothing else changed, because there is no state
(R121). -/
def raise (s : State) (e : ErrorKind) : State := { s with out := Outputs.ofError s.params e }

/-- A transaction with a reserved `OP` does `raise IllegalOp(0)` (R49, R119). -/
def illegalOp (s : State) : Host.Outcome State Fault Refusal := .next (raise s .illegalOp)

/-- The outputs while the inputs change: any value, port by port (R131, R134; log entry 6). -/
def Outputs.unsettled (p : Config.Params) (moment : Nat) : Outputs p :=
  { y := Config.unsettled .y p.n moment
    yw := Config.unsettled .yw p.ww moment
    uovf := (Config.unsettled .uovf 1 moment).getLsbD 0
    sovf := (Config.unsettled .sovf 1 moment).getLsbD 0
    err := Config.unsettled .err 3 moment
    einfo := Config.unsettled .einfo 2 moment
    txt := Vector.ofFn fun j => (Config.unsettled .txt (8 * p.tmax) moment).extractLsb' (8 * j.val) 8
    tlen := Config.unsettled .tlen p.tlw moment }

/-- The host presents new inputs (R11). The outputs are not to be sampled until the next step (R134). -/
def State.present (s : State) (inp : Inputs s.params) : State :=
  { s with inp := inp, out := Outputs.unsettled s.params s.moment, moment := s.moment + 1 }

end Sys2Proof.Machine
end

