-- ==== Sys2Proof/Machine/Arithmetic.lean ====
section
/-! DEFINITION. ADD, SUB, MUL (R64, R68, R72). Overflow is reported on the flags and is never an error (R76). -/

namespace Sys2Proof.Machine

variable {n : Nat}

/-- ADD: `r <- bv_N(uval(a) + uval(b))` (R64). -/
def addBits (a b : BitVec n) : BitVec n := bv n ((uval a : Int) + uval b)

/-- SUB: `r <- bv_N(uval(a) - uval(b))` (R68). -/
def subBits (a b : BitVec n) : BitVec n := bv n ((uval a : Int) - uval b)

/-- MUL: `r <- bv_N(uval(a) * uval(b))`, the low `N` bits of the product (R72). -/
def mulBits (a b : BitVec n) : BitVec n := bv n ((uval a : Int) * uval b)

/-- ADD (R64). -/
def execAdd (s : State) : Host.Outcome State Fault Refusal :=
  .next (driveValue s (addBits (opA s) (opB s)) s.params.n
    (addUovf (opA s) (opB s)) (addSovf (opA s) (opB s) (addBits (opA s) (opB s))))

/-- SUB (R68). -/
def execSub (s : State) : Host.Outcome State Fault Refusal :=
  .next (driveValue s (subBits (opA s) (opB s)) s.params.n
    (subUovf (opA s) (opB s)) (subSovf (opA s) (opB s) (subBits (opA s) (opB s))))

/-- MUL (R72). -/
def execMul (s : State) : Host.Outcome State Fault Refusal :=
  .next (driveValue s (mulBits (opA s) (opB s)) s.params.n
    (mulUovf (opA s) (opB s)) (mulSovf (opA s) (opB s) (mulBits (opA s) (opB s))))

end Sys2Proof.Machine
end

