-- ==== Sys2Proof/Machine/Bitwise.lean ====
section
/-! DEFINITION. AND, OR, XOR, NOT (R78 to R84): position-wise, width-preserving, no flag, no error. -/

namespace Sys2Proof.Machine

/-- AND: `Y[i] <- a[i] & b[i]` (R78). -/
def execAnd (s : State) : Host.Outcome State Fault Refusal :=
  .next (driveValue s (opA s &&& opB s) s.params.n false false)

/-- OR: `Y[i] <- a[i] | b[i]` (R79). -/
def execOr (s : State) : Host.Outcome State Fault Refusal :=
  .next (driveValue s (opA s ||| opB s) s.params.n false false)

/-- XOR: `Y[i] <- a[i] ^ b[i]` (R80). -/
def execXor (s : State) : Host.Outcome State Fault Refusal :=
  .next (driveValue s (opA s ^^^ opB s) s.params.n false false)

/-- NOT: `Y[i] <- ~a[i]`; port `B` is ignored (R81). -/
def execNot (s : State) : Host.Outcome State Fault Refusal :=
  .next (driveValue s (~~~(opA s)) s.params.n false false)

end Sys2Proof.Machine
end

