-- ==== Sys2Proof/Machine/Format.lean ====
section
/-! DEFINITION. BIN, UDEC, SDEC, UHEX, SHEX, FMT (R100 to R110). The formatter never fails (R109). -/

namespace Sys2Proof.Machine

variable {n : Nat}

/-- The binary field of bits `i-1` down to 0: a space after every bit whose index is a nonzero multiple of 4
(R104, the loop read from bit `i-1` on). -/
def binFrom (a : BitVec n) : Nat → Text
  | 0 => []
  | i + 1 =>
    (if a.getLsbD i then '1' else '0')
      :: (if i ≠ 0 ∧ i % 4 = 0 then ' ' :: binFrom a i else binFrom a i)

/-- BIN: the bits high to low in groups of 4 counted from bit 0 (R104). -/
def binText (a : BitVec n) : Text := binFrom a n

/-- UDEC: `dec(uval(a))` (R100). -/
def udecText (a : BitVec n) : Text := dec (uval a)

/-- SDEC: the decimal numeral of `sval(a)`, a minus sign when negative (R101). -/
def sdecText (a : BitVec n) : Text :=
  if sign a then '-' :: dec (2 ^ n - uval a) else dec (uval a)

/-- UHEX: `"0x" ++ hex_D(uval(a))` (R102). -/
def uhexText (a : BitVec n) : Text := '0' :: 'x' :: hex (hexDigits n) (uval a)

/-- SHEX: as UHEX when the sign bit is 0, else `"-0x" ++ hex_D(2^N - uval(a))` (R103). -/
def shexText (a : BitVec n) : Text :=
  if sign a then '-' :: '0' :: 'x' :: hex (hexDigits n) (2 ^ n - uval a) else uhexText a

/-- The opening brace, code `0x7B` (R107). -/
def openBrace : Char := Char.ofNat 0x7B

/-- The closing brace, code `0x7D` (R107). -/
def closeBrace : Char := Char.ofNat 0x7D

/-- FMT: the canonical combined form of the width and the five fields (R105). -/
def fmtText (a : BitVec n) : Text :=
  ['B', 'i', 't', 's', '<'] ++ dec n ++ ['>', openBrace, ' '] ++ binText a
    ++ [' ', '|', ' ', 'd', 'e', 'c', ' '] ++ udecText a ++ ['/'] ++ sdecText a
    ++ [' ', '|', ' ', 'h', 'e', 'x', ' '] ++ uhexText a ++ ['/'] ++ shexText a ++ [' ', closeBrace]

/-- BIN (R104). -/
def execBin (s : State) : Host.Outcome State Fault Refusal := .next (driveText s (binText (opA s)))

/-- UDEC (R100). -/
def execUdec (s : State) : Host.Outcome State Fault Refusal := .next (driveText s (udecText (opA s)))

/-- SDEC (R101). -/
def execSdec (s : State) : Host.Outcome State Fault Refusal := .next (driveText s (sdecText (opA s)))

/-- UHEX (R102). -/
def execUhex (s : State) : Host.Outcome State Fault Refusal := .next (driveText s (uhexText (opA s)))

/-- SHEX (R103). -/
def execShex (s : State) : Host.Outcome State Fault Refusal := .next (driveText s (shexText (opA s)))

/-- FMT (R105). -/
def execFmt (s : State) : Host.Outcome State Fault Refusal := .next (driveText s (fmtText (opA s)))

end Sys2Proof.Machine
end

