-- ==== Sys2Proof/Machine/Shift.lean ====
section
/-! DEFINITION. SHL, SHR, SAR (R85 to R91). The count is a natural number, never reduced modulo anything (R88). -/

namespace Sys2Proof.Machine

variable {n : Nat}

/-- SHL: `Y[i] <- (i >= k) ? a[i - k] : 0` (R85, R88). -/
def shlBits (a : BitVec n) (k : Nat) : BitVec n :=
  ofBits n fun i => if k ≤ i then a.getLsbD (i - k) else false

/-- SHR: `Y[i] <- (i + k < N) ? a[i + k] : 0` (R86, R88). -/
def shrBits (a : BitVec n) (k : Nat) : BitVec n :=
  ofBits n fun i => if i + k < n then a.getLsbD (i + k) else false

/-- SAR: `Y[i] <- (i + k < N) ? a[i + k] : a[N-1]` (R87, R89). -/
def sarBits (a : BitVec n) (k : Nat) : BitVec n :=
  ofBits n fun i => if i + k < n then a.getLsbD (i + k) else sign a

/-- SHL (R85). -/
def execShl (s : State) : Host.Outcome State Fault Refusal :=
  .next (driveValue s (shlBits (opA s) (count s)) s.params.n false false)

/-- SHR (R86). -/
def execShr (s : State) : Host.Outcome State Fault Refusal :=
  .next (driveValue s (shrBits (opA s) (count s)) s.params.n false false)

/-- SAR (R87). -/
def execSar (s : State) : Host.Outcome State Fault Refusal :=
  .next (driveValue s (sarBits (opA s) (count s)) s.params.n false false)

end Sys2Proof.Machine
end

