-- ==== Sys2Proof/Machine/Slice.lean ====
section
/-! DEFINITION. SLICE (R92 to R97). -/

namespace Sys2Proof.Machine

variable {n : Nat}

/-- The slice `s[i] = a[lo + i]`, `0 <= i < W`, `W = hi - lo + 1` (R92). -/
def sliceBits (a : BitVec n) (hi lo : Nat) : BitVec (hi - lo + 1) := a.extractLsb' lo (hi - lo + 1)

/-- SLICE (R92): an illegal range raises `InvalidRange` with the bounds violated (R93); a legal one puts the
slice on `Y[W-1:0]`, zeros above it, and `W` on `YW` (R95). -/
def execSlice (s : State) : Host.Outcome State Fault Refusal :=
  if upper s < lower s ∨ s.params.n ≤ upper s then
    .next (raise s (.invalidRange (decide (upper s < lower s)) (decide (s.params.n ≤ upper s)) false))
  else
    .next (driveValue s ((sliceBits (opA s) (upper s) (lower s)).setWidth s.params.n)
      (upper s - lower s + 1) false false)

end Sys2Proof.Machine
end

