-- ==== Sys2Proof/Machine/Dispatch.lean ====
section
/-! DEFINITION. One arm per operation of R48. -/

namespace Sys2Proof.Machine

def exec (i : Instr) (s : State) : Host.Outcome State Fault Refusal :=
  match i with
  | .add => Sys2Proof.Machine.execAdd s
  | .sub => Sys2Proof.Machine.execSub s
  | .mul => Sys2Proof.Machine.execMul s
  | .and => Sys2Proof.Machine.execAnd s
  | .or => Sys2Proof.Machine.execOr s
  | .xor => Sys2Proof.Machine.execXor s
  | .not => Sys2Proof.Machine.execNot s
  | .shl => Sys2Proof.Machine.execShl s
  | .shr => Sys2Proof.Machine.execShr s
  | .sar => Sys2Proof.Machine.execSar s
  | .slice => Sys2Proof.Machine.execSlice s
  | .bin => Sys2Proof.Machine.execBin s
  | .udec => Sys2Proof.Machine.execUdec s
  | .sdec => Sys2Proof.Machine.execSdec s
  | .uhex => Sys2Proof.Machine.execUhex s
  | .shex => Sys2Proof.Machine.execShex s
  | .fmt => Sys2Proof.Machine.execFmt s

end Sys2Proof.Machine
end

