-- ==== Sys2Proof/Machine/Step.lean ====
section
/-! DEFINITION. One step is one transaction (R11): the host has held its inputs long enough (R134) and the
outputs become the function of the inputs. Nothing is fetched (R28): the operation is whatever `OP` carries. -/

namespace Sys2Proof.Machine

/-- One transaction. An instance whose parameters break R7 does not exist and is refused (R20, R133); a reserved
`OP` raises `IllegalOp` (R49). -/
def step (s : State) : Host.Outcome State Fault Refusal :=
  if s.params.wellFormed then
    match decode s.inp.op with
    | .ok i => exec i s
    | .error _ => illegalOp s
  else .refused .illegalParameters

/-- The host presents the instruction word on `OP` and keeps every other input port as it is (log entry 7); the
outputs are unsettled until the next step (R131). -/
def State.withFetchWord (s : State) (nbits w : Nat) : State :=
  s.present { s.inp with op := opOfWord nbits w }

end Sys2Proof.Machine
end

