-- ==== Sys2Proof/Machine/Structure.lean ====
section
/-! DEFINITION. The internal structures the spec describes and calls not observable (R65, R66, R69, R73, R91,
R111). No operation calls them: an operation is its arithmetic definition, and that a structure computes the same
is a statement about it. -/

namespace Sys2Proof.Machine

variable {n : Nat}

/-- The carry chain of R65: `carry a b c0 i` is `c[i]`, with `c[0] = c0`. -/
def carry (a b : BitVec n) (c0 : Bool) : Nat → Bool
  | 0 => c0
  | i + 1 =>
    (a.getLsbD i && b.getLsbD i) || (a.getLsbD i && carry a b c0 i) || (b.getLsbD i && carry a b c0 i)

/-- The sum bits of the carry chain, `r[i] <- a[i] ^ b[i] ^ c[i]` (R65). -/
def rippleSum (a b : BitVec n) (c0 : Bool) : BitVec n :=
  ofBits n fun i => (a.getLsbD i ^^ b.getLsbD i) ^^ carry a b c0 i

/-- `g[i] = a[i] & b[i]` (R66). -/
def generates (a b : BitVec n) (i : Nat) : Bool := a.getLsbD i && b.getLsbD i

/-- `p[i] = a[i] ^ b[i]` (R66). -/
def propagates (a b : BitVec n) (i : Nat) : Bool := a.getLsbD i ^^ b.getLsbD i

/-- `p[lo] & ... & p[hi-1]`, all the propagates from `lo` below `hi` (R66). -/
def propagatesAll (a b : BitVec n) (lo hi : Nat) : Bool :=
  (List.range hi).all fun m => decide (m < lo) || propagates a b m

/-- The expanded carry of R66: `c[i]` is 1 iff some position below `i` generates and every position between
propagates, or every position below `i` propagates the carry into bit 0. -/
def lookaheadCarry (a b : BitVec n) (c0 : Bool) (i : Nat) : Bool :=
  ((List.range i).any fun j => generates a b j && propagatesAll a b (j + 1) i)
    || (propagatesAll a b 0 i && c0)

/-- The lookahead adder's sum, `r[i] = p[i] ^ c[i]` (R66). -/
def lookaheadSum (a b : BitVec n) (c0 : Bool) : BitVec n :=
  ofBits n fun i => propagates a b i ^^ lookaheadCarry a b c0 i

/-- The shift-and-add product of R73 over bits below `i`: the sum of `uval(a) * 2^j` over `b[j] = 1`. -/
def shiftAddProduct (a b : BitVec n) : Nat → Nat
  | 0 => 0
  | i + 1 => shiftAddProduct a b i + (if b.getLsbD i then uval a * 2 ^ i else 0)

/-- `ceil(log2 N)`, the number of mux stages of a barrel shifter (R91). -/
def barrelStages (n : Nat) : Nat := if n ≤ 1 then 0 else (n - 1).log2 + 1

/-- The first `L` mux stages: stage `j` shifts by `2^j` when bit `j` of the count is 1 (R91). -/
def muxStages (shift : BitVec n → Nat → BitVec n) (a : BitVec n) (k : Nat) : (L : Nat) → BitVec n
  | 0 => a
  | j + 1 => if k.testBit j then shift (muxStages shift a k j) (2 ^ j) else muxStages shift a k j

/-- A barrel shifter (R91): its stages, and the fill value when a higher bit of the count is 1 or the count is at
least `N`. -/
def barrel (shift : BitVec n → Nat → BitVec n) (fill a : BitVec n) (k : Nat) : BitVec n :=
  if 2 ^ barrelStages n ≤ k ∨ n ≤ k then fill else muxStages shift a k (barrelStages n)

/-- One shift-and-add-3 step of a binary-to-decimal network on BCD digits, least significant first, with the bit
shifted in (R111): a digit of 5 or more gets 3 added, then all digits shift left by one as 4-bit groups. -/
def dabbleShift : (bitIn : Bool) → (bcd : List Nat) → List Nat
  | _, [] => []
  | c, d :: ds =>
    let shifted := 2 * (if 5 ≤ d then d + 3 else d) + c.toNat
    shifted % 16 :: dabbleShift (decide (16 ≤ shifted)) ds

/-- Shift bits `i-1` down to 0 of a value into BCD digits (R111). -/
def dabble (a : BitVec n) : (i : Nat) → (bcd : List Nat) → List Nat
  | 0, bcd => bcd
  | i + 1, bcd => dabble a i (dabbleShift (a.getLsbD i) bcd)

/-- Suppress leading zero digits, most significant first, keeping a last digit (R111). -/
def suppressZeros : List Nat → List Nat
  | [] => []
  | [d] => [d]
  | d :: e :: ds => if d = 0 then suppressZeros (e :: ds) else d :: e :: ds

/-- The text of the double-dabble converter: `digits(2^N - 1)` BCD digits, leading zeros suppressed (R111). -/
def dabbleText (a : BitVec n) : Text :=
  (suppressZeros (dabble a n (List.replicate (digits (2 ^ n - 1)) 0)).reverse).map digitChar

end Sys2Proof.Machine
end

