-- ==== Sys2Proof/Machine/BitStorage.lean ====
section
/-! DEFINITION. The data model as the host holds it, a width-tagged BitVector (R13, R25), and the host-side
accessors and constructors (R21 to R26). None has an `OP` value; no step calls them. -/

namespace Sys2Proof.Machine

/-- BitVector(N) with its width, a positive integer, so that no value of width 0 can be built (R13, R20; log entry
4). Two are equal iff they have the same width and bits (R25). -/
structure Value where
  width : Nat
  pos   : 1 ≤ width
  bits  : BitVec width
deriving DecidableEq, Repr

/-- `i` is a legal bit index of a value of width `n`: `0 <= i < N` (R22). -/
def indexLegal (n : Nat) (i : Int) : Bool := decide (0 ≤ i) && decide (i < n)

/-- `get(a, i)` (R22; an out-of-range index is an error, never a value, log entry 11). -/
def getBit (a : Value) (i : Int) : Except ErrorKind Bool :=
  if indexLegal a.width i then .ok (a.bits.getLsbD i.toNat) else .error (.indexOutOfBounds i)

/-- `set(a, i, v)` (R23): the new value with bit `i` replaced. -/
def setBit (a : Value) (i : Int) (v : Bool) : Except ErrorKind Value :=
  if indexLegal a.width i then
    .ok { a with bits := ofBits a.width fun j => if j = i.toNat then v else a.bits.getLsbD j }
  else .error (.indexOutOfBounds i)

/-- `zeros_N` (R24). As for every function the spec indexes by `N`, there is none for `N = 0` (R20; log entry 4). -/
def zeros (n : Nat) (_pos : 1 ≤ n) : BitVec n := ofBits n fun _ => false

/-- `ones_N` (R24). -/
def ones (n : Nat) (_pos : 1 ≤ n) : BitVec n := ofBits n fun _ => true

/-- `from_bits_N(s)` (R24): sequence position `i` is bit `i`; another length is a `WidthMismatch`. -/
def fromBits (n : Nat) (_pos : 1 ≤ n) (s : List Bool) : Except ErrorKind (BitVec n) :=
  if s.length = n then .ok (ofBits n fun i => s.getD i false) else .error (.widthMismatch n s.length)

/-- The ordering of R26, unsigned magnitude, for two values of one width (between widths it is not stated, log
entry 13). -/
def lessThan (a b : Value) (_same : b.width = a.width) : Bool := decide (uval a.bits < uval b.bits)

end Sys2Proof.Machine
end

