-- ==== Sys2Proof/Machine/Parser.lean ====
section
/-! DEFINITION. The host-side parser `parse_N` (R54 to R62). -/

namespace Sys2Proof.Machine

/-- A separator is a space or an underscore, nothing else (R54). -/
def isSeparator (c : Char) : Bool := c == ' ' || c == '_'

/-- A digit of the input grammar (R61). -/
def isBinaryDigit (c : Char) : Bool := c == '0' || c == '1'

/-- The significant characters `t'` of a text (R55). -/
def significant (t : Text) : Text := t.filter fun c => !isSeparator c

/-- The leftmost significant character that is no digit, with its 0-based position from `p` on (R57). -/
def firstBadDigit : (t : Text) → (p : Nat) → Option (Char × Nat)
  | [], _ => none
  | c :: t, p => if isBinaryDigit c then firstBadDigit t (p + 1) else some (c, p)

/-- `parse_N(t)` (R62), `N >= 1` (R20): `InvalidDigit` before `LengthMismatch` (R59); bit `i` is 1 iff `t'[N-1-i] = '1'` (R56). -/
def parse (n : Nat) (_pos : 1 ≤ n) (t : Text) : Except ErrorKind (BitVec n) :=
  match firstBadDigit (significant t) 0 with
  | some (c, p) => .error (.invalidDigit c p)
  | none =>
    if (significant t).length = n then
      .ok (ofBits n fun i => (significant t)[n - 1 - i]? == some '1')
    else .error (.lengthMismatch n (significant t).length)

end Sys2Proof.Machine
end

