-- ==== Sys2Proof/Machine/ValueOps.lean ====
section
/-! DEFINITION. The operations at the value level, the form the source states them in (R34): functions on
width-tagged values that return a result or an error, with `WidthMismatch` for operands of different widths (R75,
R82, R113), and the aliases of R52. -/

namespace Sys2Proof.Machine

/-- What an operation returns when it raises no error: a value with its two flags (false for an operation that
has none, R83), or a text. -/
inductive Result
  | value (v : Value) (uovf sovf : Bool)
  | text (t : Text)
deriving DecidableEq, Repr

/-- Apply a two-operand operation to operands of one width; other widths are a `WidthMismatch` carrying the two
widths, never an extension or truncation (R75, R113; log entry 10). -/
def withSameWidth {α : Type} (a b : Value) (f : (n : Nat) → 1 ≤ n → BitVec n → BitVec n → α) : Except ErrorKind α :=
  if h : b.width = a.width then .ok (f a.width a.pos a.bits (b.bits.cast h))
  else .error (.widthMismatch a.width b.width)

/-- A width-preserving result without flags (R82, R90). -/
def plain {n : Nat} (pos : 1 ≤ n) (y : BitVec n) : Result := .value { width := n, pos := pos, bits := y } false false

/-- The slice over integer indices (R92): a negative index is an `InvalidRange` too (R93; log entry 9). -/
def sliceValue (a : Value) (hi lo : Int) : Except ErrorKind Value :=
  if sliceRangeWellFormed a.width hi lo then
    .ok { width := hi.toNat - lo.toNat + 1, pos := Nat.le_add_left 1 _, bits := sliceBits a.bits hi.toNat lo.toNat }
  else .error (.invalidRange (decide (hi < lo)) (decide (a.width ≤ hi)) (decide (hi < 0) || decide (lo < 0)))

/-- The operation `i` on the values `a`, `b`, the count `k` and the indices `hi`, `lo`; those it does not use are
ignored (R50). -/
def valueOp (i : Instr) (a b : Value) (k : Nat) (hi lo : Int) : Except ErrorKind Result :=
  match i with
  | .add => withSameWidth a b fun n pos x y =>
      .value { width := n, pos := pos, bits := addBits x y } (addUovf x y) (addSovf x y (addBits x y))
  | .sub => withSameWidth a b fun n pos x y =>
      .value { width := n, pos := pos, bits := subBits x y } (subUovf x y) (subSovf x y (subBits x y))
  | .mul => withSameWidth a b fun n pos x y =>
      .value { width := n, pos := pos, bits := mulBits x y } (mulUovf x y) (mulSovf x y (mulBits x y))
  | .and => withSameWidth a b fun _ pos x y => plain pos (x &&& y)
  | .or => withSameWidth a b fun _ pos x y => plain pos (x ||| y)
  | .xor => withSameWidth a b fun _ pos x y => plain pos (x ^^^ y)
  | .not => .ok (plain a.pos (~~~a.bits))
  | .shl => .ok (plain a.pos (shlBits a.bits k))
  | .shr => .ok (plain a.pos (shrBits a.bits k))
  | .sar => .ok (plain a.pos (sarBits a.bits k))
  | .slice =>
    match sliceValue a hi lo with
    | .ok v => .ok (.value v false false)
    | .error e => .error e
  | .bin => .ok (.text (binText a.bits))
  | .udec => .ok (.text (udecText a.bits))
  | .sdec => .ok (.text (sdecText a.bits))
  | .uhex => .ok (.text (uhexText a.bits))
  | .shex => .ok (.text (shexText a.bits))
  | .fmt => .ok (.text (fmtText a.bits))

/-- `unsigned_add(a, b)`: ADD, the pair `(Y, UOVF)` (R52). -/
def unsignedAdd (a b : Value) : Except ErrorKind (Value × Bool) :=
  withSameWidth a b fun n pos x y => ({ width := n, pos := pos, bits := addBits x y }, addUovf x y)

/-- `signed_add(a, b)`: ADD, the pair `(Y, SOVF)` (R52). -/
def signedAdd (a b : Value) : Except ErrorKind (Value × Bool) :=
  withSameWidth a b fun n pos x y => ({ width := n, pos := pos, bits := addBits x y }, addSovf x y (addBits x y))

/-- `unsigned_sub(a, b)`: SUB, the pair `(Y, UOVF)` (R52). -/
def unsignedSub (a b : Value) : Except ErrorKind (Value × Bool) :=
  withSameWidth a b fun n pos x y => ({ width := n, pos := pos, bits := subBits x y }, subUovf x y)

/-- `signed_sub(a, b)`: SUB, the pair `(Y, SOVF)` (R52). -/
def signedSub (a b : Value) : Except ErrorKind (Value × Bool) :=
  withSameWidth a b fun n pos x y => ({ width := n, pos := pos, bits := subBits x y }, subSovf x y (subBits x y))

/-- `unsigned_mul(a, b)`: MUL, the pair `(Y, UOVF)` (R52). -/
def unsignedMul (a b : Value) : Except ErrorKind (Value × Bool) :=
  withSameWidth a b fun n pos x y => ({ width := n, pos := pos, bits := mulBits x y }, mulUovf x y)

/-- `signed_mul(a, b)`: MUL, the pair `(Y, SOVF)` (R52). -/
def signedMul (a b : Value) : Except ErrorKind (Value × Bool) :=
  withSameWidth a b fun n pos x y => ({ width := n, pos := pos, bits := mulBits x y }, mulSovf x y (mulBits x y))

/-- `shift_left(v, k)`: SHL (R52). -/
def shiftLeft (v : Value) (k : Nat) : Value := { v with bits := shlBits v.bits k }

/-- `shift_right(v, k)`: SHR (R52). -/
def shiftRight (v : Value) (k : Nat) : Value := { v with bits := shrBits v.bits k }

/-- `v.extract(hi, lo)`, `v[hi:lo]` and `slice(v, hi, lo)` all mean SLICE, errors included (R52, R97). -/
def extract (v : Value) (hi lo : Int) : Except ErrorKind Value := sliceValue v hi lo

/-- `format(v)`: FMT (R52). -/
def formatValue (v : Value) : Text := fmtText v.bits

/-- `unsigned_value(a)`: `uval(a)` (R52). -/
def unsignedValue (v : Value) : Nat := uval v.bits

end Sys2Proof.Machine
end

