-- ==== Sys2Proof/Machine/Wiring.lean ====
section
/-! DEFINITION. What the host does between transactions: it wires a value to port `A` or `B`, having checked its
width (R8, R94, R113, R133), loads one from text (R128), and reads a transaction's outputs, the error first
(R118). -/

namespace Sys2Proof.Machine

/-- What a host connects to an operand port: a value it holds, or the instance's own `Y` with no storage in
between, which the spec gives no meaning (R135, U17). -/
inductive Source
  | held (v : Value)
  | ownOutput
deriving DecidableEq, Repr

/-- The wires of a value on an operand port of `n` wires: a value of another width is never extended or cut to fit
(R75, R94, R128; log entry 10). -/
def operandWires (n : Nat) (v : Value) : Except Fault (BitVec n) :=
  if h : v.width = n then .ok (v.bits.cast h) else .error (.widthMismatch n v.width)

/-- The wires of a number on a port of `w` wires, as an unsigned binary number (R51); one that does not fit is not
presented (log entry 18). -/
def numberWires (w x : Nat) : Except Fault (BitVec w) :=
  if x < 2 ^ w then .ok (BitVec.ofNat w x) else .error (.numberTooWide w x)

/-- The wires a source puts on a port of `n` wires. -/
def connect (n : Nat) (src : Source) : Host.Outcome (BitVec n) Fault Refusal :=
  match src with
  | .held v =>
    match operandWires n v with
    | .ok x => .next x
    | .error f => .fault f
  | .ownOutput => .refused .combinationalLoop

/-- Present a source on an operand port; `put` gives the inputs with that port's wires set. An instance outside R7 is
not there to be wired (R20, R133). -/
def State.connectTo (s : State) (src : Source) (put : BitVec s.params.n → Inputs s.params) :
    Host.Outcome State Fault Refusal :=
  if s.params.wellFormed then
    match connect s.params.n src with
    | .next x => .next (s.present (put x))
    | .fault f => .fault f
    | .refused r => .refused r
  else .refused .illegalParameters

/-- Present a source on port `A`, every other input kept. -/
def State.connectA (s : State) (src : Source) : Host.Outcome State Fault Refusal :=
  s.connectTo src fun x => { s.inp with a := x }

/-- Present a source on port `B`, every other input kept. -/
def State.connectB (s : State) (src : Source) : Host.Outcome State Fault Refusal :=
  s.connectTo src fun x => { s.inp with b := x }

/-- Load an operand port from a text (R62, R128): the nearest thing this hardware has to a load. A text that does not
parse is the parser's error, with nothing presented. -/
def State.loadTo (s : State) (t : Text) (put : BitVec s.params.n → Inputs s.params) :
    Host.Outcome State ErrorKind Refusal :=
  if h : s.params.wellFormed = true then
    match parse s.params.n (Config.Params.width_pos h) t with
    | .ok x => .next (s.present (put x))
    | .error e => .fault e
  else .refused .illegalParameters

/-- Load port `A` from a text, every other input kept. -/
def State.loadA (s : State) (t : Text) : Host.Outcome State ErrorKind Refusal :=
  s.loadTo t fun x => { s.inp with a := x }

/-- Load port `B` from a text, every other input kept. -/
def State.loadB (s : State) (t : Text) : Host.Outcome State ErrorKind Refusal :=
  s.loadTo t fun x => { s.inp with b := x }

/-- The value the host drives on port `A` of a legal instance. -/
def State.valueA (s : State) (h : s.params.wellFormed = true) : Value :=
  { width := s.params.n, pos := Config.Params.width_pos h, bits := s.inp.a }

/-- The value the host drives on port `B` of a legal instance. -/
def State.valueB (s : State) (h : s.params.wellFormed = true) : Value :=
  { width := s.params.n, pos := Config.Params.width_pos h, bits := s.inp.b }

/-- What the host reads off the outputs of a settled transaction (R118: a sum type, the error in place of a
value). -/
inductive Reading
  | value (v : Value) (uovf sovf : Bool)
  | text (codes : List Byte)
  | error (err : BitVec 3) (einfo : BitVec 2)
deriving DecidableEq, Repr

/-- A number on wires that are not all 0 is positive. -/
theorem toNat_pos {w : Nat} {x : BitVec w} (h : x ≠ 0) : 1 ≤ x.toNat :=
  Nat.pos_of_ne_zero fun hx => h (BitVec.eq_of_toNat_eq (by simpa using hx))

/-- Read the outputs: `ERR` first (R118); `YW = 0` marks "no value" (R50, R118), and a value is `Y[YW-1:0]` (R95);
a text is the first `TLEN` lanes (R107). -/
def Outputs.reading {p : Config.Params} (o : Outputs p) : Reading :=
  if o.err ≠ 0 then .error o.err o.einfo
  else if h : o.yw ≠ 0 then
    .value { width := o.yw.toNat, pos := toNat_pos h, bits := o.y.setWidth o.yw.toNat } o.uovf o.sovf
  else .text (o.txt.toList.take o.tlen.toNat)

/-- How a value-level result reads at the ports (R34: the port form is the packaging of the value form). -/
def readingOf (r : Except ErrorKind Result) : Reading :=
  match r with
  | .ok (.value v uovf sovf) => .value v uovf sovf
  | .ok (.text t) => .text (t.map charCode)
  | .error e => .error e.code e.info

/-- One line of a host's program (R11, R52): the operation select, the values put on the operand ports, and the
numbers put on the count and index ports (R51). -/
structure Transaction where
  op : OpWord
  a  : Value
  b  : Value
  k  : Nat
  hi : Nat
  lo : Nat
deriving DecidableEq, Repr

/-- Every operand has its port's width and every number its port's range (R128, R133). -/
abbrev Transaction.Fits (p : Config.Params) (x : Transaction) : Prop :=
  x.a.width = p.n ∧ x.b.width = p.n ∧ x.k < 2 ^ p.kw ∧ x.hi < 2 ^ p.iw ∧ x.lo < 2 ^ p.iw

/-- The input ports a transaction drives, or the first of its operands that its port cannot carry. -/
def Transaction.inputs (p : Config.Params) (x : Transaction) : Except Fault (Inputs p) := do
  let a ← operandWires p.n x.a
  let b ← operandWires p.n x.b
  let k ← numberWires p.kw x.k
  let hi ← numberWires p.iw x.hi
  let lo ← numberWires p.iw x.lo
  return { op := x.op, a := a, b := b, k := k, hi := hi, lo := lo }

/-- Present a transaction on the ports. -/
def State.drive (s : State) (x : Transaction) : Host.Outcome State Fault Refusal :=
  if s.params.wellFormed then
    match x.inputs s.params with
    | .ok inp => .next (s.present inp)
    | .error f => .fault f
  else .refused .illegalParameters

/-- Present a transaction and let it settle (R11, R134). -/
def State.transact (s : State) (x : Transaction) : Host.Outcome State Fault Refusal :=
  match s.drive x with
  | .next t => step t
  | .fault f => .fault f
  | .refused r => .refused r

/-- A host's program on one instance (R11): each transaction in turn. -/
def runTransactions (s : State) : List Transaction → Host.Outcome State Fault Refusal
  | [] => .next s
  | x :: xs =>
    match s.transact x with
    | .next t => runTransactions t xs
    | .fault f => .fault f
    | .refused r => .refused r

end Sys2Proof.Machine
end

