-- ==== Sys2Proof/Safety.lean ====
section
/-! DEFINITION. The terms the claims use: which outputs a transaction left at their default, what a text on the
port is, how a numeral is read back, which outputs the block can ever drive, and when the host may sample. -/

namespace Sys2Proof.Machine

variable {p : Config.Params}

/-- No error is raised: `ERR = 0` and `EINFO = 0` (R50). -/
def Outputs.NoError (o : Outputs p) : Prop := o.err = 0 ∧ o.einfo = 0

/-- Both flags are 0 (R50, R83). -/
def Outputs.NoFlags (o : Outputs p) : Prop := o.uovf = false ∧ o.sovf = false

/-- `Y` carries no result (R50, R118). -/
def Outputs.NoValue (o : Outputs p) : Prop := o.y = 0 ∧ o.yw = 0

/-- The text port carries `t` (R107): `TLEN` is its length, lane `j` the code of character `j`, and every lane
from the length up is 0. -/
def Outputs.HasText (o : Outputs p) (t : Text) : Prop :=
  o.tlen.toNat = t.length ∧
  ∀ j (h : j < p.tmax), o.txt[j] = if h' : j < t.length then BitVec.ofNat 8 t[j].toNat else 0

/-- The outputs of an operation that gives a text and nothing else (R50). -/
def Outputs.OnlyText (o : Outputs p) (t : Text) : Prop := o.HasText t ∧ o.NoValue ∧ o.NoFlags ∧ o.NoError

/-- The outputs of an operation that gives a value of the instance's width and no text (R50). -/
def Outputs.OnlyValue (o : Outputs p) : Prop := o.yw.toNat = p.n ∧ o.HasText [] ∧ o.NoError

/-- The 30 characters a text of the block can hold: the 31 of R107 without `'_'`, which is for parser input only. -/
def alphabet : Text :=
  ['0', '1', '2', '3', '4', '5', '6', '7', '8', '9', 'a', 'b', 'c', 'd', 'e', 'f',
   ' ', '-', '/', '<', '>', 'B', 'h', 'i', 's', 't', 'x', openBrace, '|', closeBrace]

/-- What a settled transaction's outputs always look like (R50, R95, R106, R107, R116, R118, R120):
exactly one of a value, a text, an error. -/
structure Outputs.Legal (o : Outputs p) : Prop where
  errCode : o.err = 0 ∨ o.err = 4 ∨ o.err = 6
  detailOnlyForRange : o.einfo ≠ 0 ↔ o.err = 4
  errorMeansNothingElse : o.err ≠ 0 → o.NoValue ∧ o.NoFlags ∧ o.HasText []
  valueOrTextOrError : o.err = 0 → (o.yw = 0 ↔ o.tlen ≠ 0)
  widthWithinN : o.yw.toNat ≤ p.n
  noBitAboveWidth : ∀ i, o.yw.toNat ≤ i → o.y.getLsbD i = false
  flagsOnlyAtFullWidth : o.uovf = true ∨ o.sovf = true → o.yw.toNat = p.n
  textFits : o.tlen.toNat ≤ lfmt p.n ∧ lfmt p.n ≤ p.tmax
  lanesInAlphabet : ∀ j (h : j < p.tmax), j < o.tlen.toNat → ∃ c ∈ alphabet, o.txt[j] = BitVec.ofNat 8 c.toNat
  lanesAboveAreZero : ∀ j (h : j < p.tmax), o.tlen.toNat ≤ j → o.txt[j] = 0

/-- The invariant of every step: the instance is legal (R7) and its outputs are legal. -/
def State.Inv (s : State) : Prop := s.params.wellFormed = true ∧ s.out.Legal

/-- The outputs are settled: they are the function of the present inputs (R131), so the host may sample (R134). -/
def State.Settled (s : State) : Prop := step s = .next s

/-- The value of a decimal digit character. -/
def decValue (c : Char) : Nat := c.toNat - 48

/-- The value of a lowercase hexadecimal digit character. -/
def hexValue (c : Char) : Nat := if c.toNat < 97 then c.toNat - 48 else c.toNat - 87

/-- Read a decimal numeral. -/
def readDec (t : Text) : Nat := t.foldl (fun x c => 10 * x + decValue c) 0

/-- Read a hexadecimal numeral. -/
def readHex (t : Text) : Nat := t.foldl (fun x c => 16 * x + hexValue c) 0

/-- `t` is a decimal numeral: at least one digit `0` to `9`, no sign, and no leading zero but in `"0"` (R98). -/
def IsDecNumeral (t : Text) : Prop :=
  t ≠ [] ∧ (∀ c ∈ t, '0' ≤ c ∧ c ≤ '9') ∧ (t.head? = some '0' → t = ['0'])

/-- `t` is made of exactly `D` lowercase hexadecimal digits (R99). -/
def IsHexNumeral (D : Nat) (t : Text) : Prop :=
  t.length = D ∧ ∀ c ∈ t, ('0' ≤ c ∧ c ≤ '9') ∨ ('a' ≤ c ∧ c ≤ 'f')

/-- The input ports other than `OP`. -/
inductive InPort
  | a | b | k | hi | lo
deriving DecidableEq, Repr

/-- The input ports an operation uses (R47, R50); it ignores every other. -/
def usedPorts (i : Instr) : List InPort :=
  match i with
  | .add => [.a, .b]
  | .sub => [.a, .b]
  | .mul => [.a, .b]
  | .and => [.a, .b]
  | .or => [.a, .b]
  | .xor => [.a, .b]
  | .not => [.a]
  | .shl => [.a, .k]
  | .shr => [.a, .k]
  | .sar => [.a, .k]
  | .slice => [.a, .hi, .lo]
  | .bin => [.a]
  | .udec => [.a]
  | .sdec => [.a]
  | .uhex => [.a]
  | .shex => [.a]
  | .fmt => [.a]

/-- Two input valuations agree on a port. -/
def Inputs.AgreeOn (x y : Inputs p) : InPort → Prop
  | .a => x.a = y.a
  | .b => x.b = y.b
  | .k => x.k = y.k
  | .hi => x.hi = y.hi
  | .lo => x.lo = y.lo

end Sys2Proof.Machine
end

