-- ==== Sys2Proof/Certificates/Slice0/Obligations.lean ====
section
/-! DEFINITION. The statements about the block. Each is for every instance (every legal choice of the parameters of
R7), every value on every port, and whatever the outputs held before. `s.params.wellFormed = true` says that the
instance is one the spec has (R7, R20). A conclusion `exec i s = .next { s with out := o }` is the completion of
the operation and its frame in one: the parameters, all input ports and the model's `moment` stay as they are, and
there is no other state (R16, R27 to R32, R36). Every output port is then said. -/

open Sys2Proof Sys2Proof.Machine

/-! ## Arithmetic: ADD, SUB, MUL -/

/-- R64: `OP = 00000`, the wrapped sum on `Y`, `UOVF` the carry out, `SOVF` the sign rule. -/
def Obligations.AddGivesSumAndBothFlags : Prop :=
  decode 0b00000#5 = .ok .add ∧
  ∀ s : State, s.params.wellFormed = true → ∃ o : Outputs s.params,
    exec .add s = .next { s with out := o } ∧ o.OnlyValue ∧
    o.y.toNat = (s.inp.a.toNat + s.inp.b.toNat) % 2 ^ s.params.n ∧
    (o.uovf = true ↔ 2 ^ s.params.n ≤ s.inp.a.toNat + s.inp.b.toNat) ∧
    (o.sovf = true ↔ s.inp.a.getLsbD (s.params.n - 1) = s.inp.b.getLsbD (s.params.n - 1) ∧
      o.y.getLsbD (s.params.n - 1) ≠ s.inp.a.getLsbD (s.params.n - 1))

/-- R65, an inference and general knowledge of the spec's own: ADD is the carry chain from carry-in 0, `UOVF` its
last carry, `SOVF` the carries into and out of the sign position. -/
def Obligations.AddIsTheCarryChain : Prop :=
  ∀ s : State, s.params.wellFormed = true → ∃ o : Outputs s.params,
    exec .add s = .next { s with out := o } ∧
    (∀ i < s.params.n, o.y.getLsbD i =
      ((s.inp.a.getLsbD i ^^ s.inp.b.getLsbD i) ^^ carry s.inp.a s.inp.b false i)) ∧
    o.uovf = carry s.inp.a s.inp.b false s.params.n ∧
    o.sovf = (carry s.inp.a s.inp.b false s.params.n ^^ carry s.inp.a s.inp.b false (s.params.n - 1))

/-- R66, general knowledge the spec marks as such: the expanded generate/propagate carries are the carries of the
chain, so a carry-lookahead adder drives the same outputs. -/
def Obligations.LookaheadAdderEqualsAdd : Prop :=
  ∀ s : State, s.params.wellFormed = true →
    (∀ (c0 : Bool) (i : Nat), i ≤ s.params.n →
      lookaheadCarry s.inp.a s.inp.b c0 i = carry s.inp.a s.inp.b c0 i) ∧
    ∃ o : Outputs s.params, exec .add s = .next { s with out := o } ∧
      o.y = lookaheadSum s.inp.a s.inp.b false ∧
      o.uovf = lookaheadCarry s.inp.a s.inp.b false s.params.n ∧
      o.sovf = (lookaheadCarry s.inp.a s.inp.b false s.params.n ^^
        lookaheadCarry s.inp.a s.inp.b false (s.params.n - 1))

/-- R67, derived in the spec: the signed reading of ADD, and the unsigned one. -/
def Obligations.AddSignedReading : Prop :=
  ∀ s : State, s.params.wellFormed = true → ∃ o : Outputs s.params,
    exec .add s = .next { s with out := o } ∧
    (o.sovf = true ↔ s.inp.a.toInt + s.inp.b.toInt < -(2 ^ (s.params.n - 1)) ∨
      2 ^ (s.params.n - 1) - 1 < s.inp.a.toInt + s.inp.b.toInt) ∧
    (o.y.toInt = s.inp.a.toInt + s.inp.b.toInt ↔ o.sovf = false) ∧
    (o.sovf = true → 0 < s.inp.a.toInt + s.inp.b.toInt →
      o.y.toInt = s.inp.a.toInt + s.inp.b.toInt - 2 ^ s.params.n) ∧
    (o.sovf = true → s.inp.a.toInt + s.inp.b.toInt < 0 →
      o.y.toInt = s.inp.a.toInt + s.inp.b.toInt + 2 ^ s.params.n) ∧
    (o.y.toNat : Int) = s.inp.a.toNat + s.inp.b.toNat - 2 ^ s.params.n * (o.uovf.toNat : Int)

/-- R68: `OP = 00001`, the wrapped difference on `Y`, `UOVF` the borrow, `SOVF` the sign rule. -/
def Obligations.SubGivesDifferenceAndBothFlags : Prop :=
  decode 0b00001#5 = .ok .sub ∧
  ∀ s : State, s.params.wellFormed = true → ∃ o : Outputs s.params,
    exec .sub s = .next { s with out := o } ∧ o.OnlyValue ∧
    (o.y.toNat : Int) = ((s.inp.a.toNat : Int) - s.inp.b.toNat) % 2 ^ s.params.n ∧
    (o.uovf = true ↔ s.inp.a.toNat < s.inp.b.toNat) ∧
    (o.sovf = true ↔ s.inp.a.getLsbD (s.params.n - 1) ≠ s.inp.b.getLsbD (s.params.n - 1) ∧
      o.y.getLsbD (s.params.n - 1) ≠ s.inp.a.getLsbD (s.params.n - 1))

/-- R69, derived in the spec: SUB is the adder's carry chain on `a` and the complement of `b` with carry-in 1, and
`UOVF` is the complement of the last carry. -/
def Obligations.SubIsTheAdderOnTheComplement : Prop :=
  ∀ s : State, s.params.wellFormed = true → ∃ o : Outputs s.params,
    exec .sub s = .next { s with out := o } ∧
    (∀ i < s.params.n, o.y.getLsbD i =
      ((s.inp.a.getLsbD i ^^ !s.inp.b.getLsbD i) ^^ carry s.inp.a (~~~s.inp.b) true i)) ∧
    o.uovf = !carry s.inp.a (~~~s.inp.b) true s.params.n ∧
    o.sovf = (carry s.inp.a (~~~s.inp.b) true s.params.n ^^ carry s.inp.a (~~~s.inp.b) true (s.params.n - 1))

/-- R70 and R71, derived in the spec: the signed reading of SUB, and SUB as unsigned (R26), equality (R25) and
signed comparison. -/
def Obligations.SubSignedReadingAndComparison : Prop :=
  ∀ (s : State) (h : s.params.wellFormed = true), ∃ o : Outputs s.params,
    exec .sub s = .next { s with out := o } ∧
    (o.sovf = true ↔ s.inp.a.toInt - s.inp.b.toInt < -(2 ^ (s.params.n - 1)) ∨
      2 ^ (s.params.n - 1) - 1 < s.inp.a.toInt - s.inp.b.toInt) ∧
    (o.sovf = false → o.y.toInt = s.inp.a.toInt - s.inp.b.toInt) ∧
    o.uovf = lessThan (s.valueA h) (s.valueB h) rfl ∧
    (o.y = 0 ↔ s.inp.a = s.inp.b) ∧
    ((o.sovf ^^ o.y.getLsbD (s.params.n - 1)) = true ↔ s.inp.a.toInt < s.inp.b.toInt)

/-- R72: `OP = 00010`, the low `N` bits of the product on `Y`; `UOVF` says a bit of the high half is 1, `SOVF` that
the result read as signed is not the exact signed product. -/
def Obligations.MulGivesProductAndBothFlags : Prop :=
  decode 0b00010#5 = .ok .mul ∧
  ∀ s : State, s.params.wellFormed = true → ∃ o : Outputs s.params,
    exec .mul s = .next { s with out := o } ∧ o.OnlyValue ∧
    (∀ i < s.params.n, o.y.getLsbD i = (s.inp.a.toNat * s.inp.b.toNat).testBit i) ∧
    (o.uovf = true ↔ ∃ i, s.params.n ≤ i ∧ i < 2 * s.params.n ∧
      (s.inp.a.toNat * s.inp.b.toNat).testBit i = true) ∧
    (o.sovf = true ↔ o.y.toInt ≠ s.inp.a.toInt * s.inp.b.toInt)

/-- R73, derived in the spec: the signed reading of MUL, and the unsigned product as shift-and-add. -/
def Obligations.MulSignedReadingAndShiftAdd : Prop :=
  ∀ s : State, s.params.wellFormed = true → ∃ o : Outputs s.params,
    exec .mul s = .next { s with out := o } ∧
    (o.sovf = true ↔ s.inp.a.toInt * s.inp.b.toInt < -(2 ^ (s.params.n - 1)) ∨
      2 ^ (s.params.n - 1) - 1 < s.inp.a.toInt * s.inp.b.toInt) ∧
    (o.sovf = false → o.y.toInt = s.inp.a.toInt * s.inp.b.toInt) ∧
    o.y.toNat = shiftAddProduct s.inp.a s.inp.b s.params.n % 2 ^ s.params.n ∧
    (o.uovf = true ↔ 2 ^ s.params.n ≤ shiftAddProduct s.inp.a s.inp.b s.params.n)

/-- R77, derived in the spec: which pairs of flags occur at which widths, as outputs of ADD, SUB and MUL. -/
def Obligations.FlagCombinationsByWidth : Prop :=
  ∀ (n : Nat) (u v : Bool), 1 ≤ n →
    ((∃ (s : State) (o : Outputs s.params), s.params.wellFormed = true ∧ s.params.n = n ∧
        exec .add s = .next { s with out := o } ∧ o.uovf = u ∧ o.sovf = v) ↔ (2 ≤ n ∨ u = v)) ∧
    ((∃ (s : State) (o : Outputs s.params), s.params.wellFormed = true ∧ s.params.n = n ∧
        exec .sub s = .next { s with out := o } ∧ o.uovf = u ∧ o.sovf = v) ↔ (2 ≤ n ∨ u = v)) ∧
    ((∃ (s : State) (o : Outputs s.params), s.params.wellFormed = true ∧ s.params.n = n ∧
        exec .mul s = .next { s with out := o } ∧ o.uovf = u ∧ o.sovf = v) ↔
      (3 ≤ n ∨ (n = 2 ∧ (u = true ∨ v = false)) ∨ (n = 1 ∧ u = false)))

/-- R18: neither flag can be read back from the wrapped result: two operand pairs give one result and opposite flags
(for MUL from width 2 on; at width 1 its result does determine its flags). -/
def Obligations.FlagsAreNoFunctionOfTheResult : Prop :=
  ∀ (p : Config.Params) (i : Instr), p.wellFormed = true → (i = .add ∨ i = .sub ∨ (i = .mul ∧ 2 ≤ p.n)) →
    ∃ (x y : Inputs p) (o q : Outputs p),
      exec i ⟨p, x, Outputs.idle p, 0⟩ = .next ⟨p, x, o, 0⟩ ∧ exec i ⟨p, y, Outputs.idle p, 0⟩ = .next ⟨p, y, q, 0⟩ ∧
      o.y = q.y ∧ o.uovf ≠ q.uovf ∧ o.sovf ≠ q.sovf

/-! ## Bitwise: AND, OR, XOR, NOT -/

/-- R78 to R81 and R84: each result bit is the operator applied to the operand bits of the same position, the width
is kept, both flags are 0. -/
def Obligations.BitwiseOperationsArePositionwise : Prop :=
  (decode 0b01000#5 = .ok .and ∧ decode 0b01001#5 = .ok .or ∧ decode 0b01010#5 = .ok .xor ∧
    decode 0b01011#5 = .ok .not) ∧
  ∀ s : State, s.params.wellFormed = true →
    (∃ o : Outputs s.params, exec .and s = .next { s with out := o } ∧ o.OnlyValue ∧ o.NoFlags ∧
      ∀ i < s.params.n, o.y.getLsbD i = (s.inp.a.getLsbD i && s.inp.b.getLsbD i)) ∧
    (∃ o : Outputs s.params, exec .or s = .next { s with out := o } ∧ o.OnlyValue ∧ o.NoFlags ∧
      ∀ i < s.params.n, o.y.getLsbD i = (s.inp.a.getLsbD i || s.inp.b.getLsbD i)) ∧
    (∃ o : Outputs s.params, exec .xor s = .next { s with out := o } ∧ o.OnlyValue ∧ o.NoFlags ∧
      (∀ i < s.params.n, o.y.getLsbD i = (s.inp.a.getLsbD i ^^ s.inp.b.getLsbD i)) ∧
      (o.y = 0 ↔ s.inp.a = s.inp.b)) ∧
    (∃ o : Outputs s.params, exec .not s = .next { s with out := o } ∧ o.OnlyValue ∧ o.NoFlags ∧
      ∀ i < s.params.n, o.y.getLsbD i = !s.inp.a.getLsbD i)

/-- The numeric readings of NOT, derived in R81; and NOT is XOR with the all-ones operand (R80). -/
def Obligations.NotComplementsBothReadings : Prop :=
  ∀ (s : State) (h : s.params.wellFormed = true), ∃ o : Outputs s.params,
    exec .not s = .next { s with out := o } ∧
    o.y.toNat = 2 ^ s.params.n - 1 - s.inp.a.toNat ∧ o.y.toInt = -s.inp.a.toInt - 1 ∧
    exec .xor { s with inp := { s.inp with b := ones s.params.n (Config.Params.width_pos h) } } =
      .next { s with inp := { s.inp with b := ones s.params.n (Config.Params.width_pos h) }, out := o }

/-! ## Shifts: SHL, SHR, SAR -/

/-- The bit-level pseudocode of R85, R86, R87, for every count, `k >= N` among them. -/
def Obligations.ShiftsMoveBitsByTheCount : Prop :=
  (decode 0b10000#5 = .ok .shl ∧ decode 0b10001#5 = .ok .shr ∧ decode 0b10010#5 = .ok .sar) ∧
  ∀ s : State, s.params.wellFormed = true →
    (∃ o : Outputs s.params, exec .shl s = .next { s with out := o } ∧ o.OnlyValue ∧ o.NoFlags ∧
      ∀ i < s.params.n, o.y.getLsbD i =
        if s.inp.k.toNat ≤ i then s.inp.a.getLsbD (i - s.inp.k.toNat) else false) ∧
    (∃ o : Outputs s.params, exec .shr s = .next { s with out := o } ∧ o.OnlyValue ∧ o.NoFlags ∧
      ∀ i < s.params.n, o.y.getLsbD i =
        if i + s.inp.k.toNat < s.params.n then s.inp.a.getLsbD (i + s.inp.k.toNat) else false) ∧
    (∃ o : Outputs s.params, exec .sar s = .next { s with out := o } ∧ o.OnlyValue ∧ o.NoFlags ∧
      ∀ i < s.params.n, o.y.getLsbD i =
        if i + s.inp.k.toNat < s.params.n then s.inp.a.getLsbD (i + s.inp.k.toNat)
        else s.inp.a.getLsbD (s.params.n - 1))

/-- The arithmetic readings of R85, R86, R87, derived in the spec: SHL multiplies by `2^k` modulo `2^N`, SHR divides
the unsigned and SAR the signed reading by `2^k`, rounding down. -/
def Obligations.ShiftsScaleByPowersOfTwo : Prop :=
  ∀ s : State, s.params.wellFormed = true →
    (∃ o : Outputs s.params, exec .shl s = .next { s with out := o } ∧
      o.y.toNat = s.inp.a.toNat * 2 ^ s.inp.k.toNat % 2 ^ s.params.n) ∧
    (∃ o : Outputs s.params, exec .shr s = .next { s with out := o } ∧
      o.y.toNat = s.inp.a.toNat / 2 ^ s.inp.k.toNat) ∧
    (∃ o : Outputs s.params, exec .sar s = .next { s with out := o } ∧
      o.y.toInt = s.inp.a.toInt / 2 ^ s.inp.k.toNat)

/-- R88 and R89: for every `k >= N`, however large, SHL and SHR give all-zero and SAR gives `N` copies of the sign
bit; none is an error. -/
def Obligations.ShiftsSaturateAtTheWidth : Prop :=
  ∀ s : State, s.params.wellFormed = true → s.params.n ≤ s.inp.k.toNat →
    (∃ o : Outputs s.params, exec .shl s = .next { s with out := o } ∧ o.OnlyValue ∧ o.y = 0) ∧
    (∃ o : Outputs s.params, exec .shr s = .next { s with out := o } ∧ o.OnlyValue ∧ o.y = 0) ∧
    (∃ o : Outputs s.params, exec .sar s = .next { s with out := o } ∧ o.OnlyValue ∧
      o.y.toInt = if s.inp.a.getLsbD (s.params.n - 1) then -1 else 0)

/-- R91 and C5, derived in the spec: two shifts by `j` then `k` are one by `j + k`, for all counts. -/
def Obligations.ShiftsCompose : Prop :=
  ∀ (n : Nat) (a : BitVec n) (j k : Nat), 1 ≤ n →
    shlBits (shlBits a j) k = shlBits a (j + k) ∧
    shrBits (shrBits a j) k = shrBits a (j + k) ∧
    sarBits (sarBits a j) k = sarBits a (j + k)

/-- R91, general knowledge the spec marks as such: a barrel shifter of `ceil(log2 N)` mux stages, its result forced
to the fill value for large counts, drives what SHL, SHR and SAR drive. -/
def Obligations.BarrelShifterEqualsTheShifts : Prop :=
  ∀ (s : State) (h : s.params.wellFormed = true),
    (∃ o : Outputs s.params, exec .shl s = .next { s with out := o } ∧
      o.y = barrel shlBits (zeros s.params.n (Config.Params.width_pos h)) s.inp.a s.inp.k.toNat) ∧
    (∃ o : Outputs s.params, exec .shr s = .next { s with out := o } ∧
      o.y = barrel shrBits (zeros s.params.n (Config.Params.width_pos h)) s.inp.a s.inp.k.toNat) ∧
    (∃ o : Outputs s.params, exec .sar s = .next { s with out := o } ∧
      o.y = barrel sarBits
        (if s.inp.a.getLsbD (s.params.n - 1) then ones s.params.n (Config.Params.width_pos h)
          else zeros s.params.n (Config.Params.width_pos h)) s.inp.a s.inp.k.toNat)

/-! ## SLICE -/

/-- R92 and R95: a legal range gives the value of width `W = hi - lo + 1` whose bit `i` is bit `lo + i` of the source,
on `Y[W-1:0]` with zeros above, `W` on `YW`. -/
def Obligations.SliceReturnsTheInclusiveRange : Prop :=
  decode 0b10011#5 = .ok .slice ∧
  ∀ s : State, s.params.wellFormed = true → s.inp.lo.toNat ≤ s.inp.hi.toNat → s.inp.hi.toNat < s.params.n →
    ∃ o : Outputs s.params, exec .slice s = .next { s with out := o } ∧
      o.NoFlags ∧ o.NoError ∧ o.HasText [] ∧
      o.yw.toNat = s.inp.hi.toNat - s.inp.lo.toNat + 1 ∧
      (∀ i < s.inp.hi.toNat - s.inp.lo.toNat + 1, o.y.getLsbD i = s.inp.a.getLsbD (s.inp.lo.toNat + i)) ∧
      (∀ i, s.inp.hi.toNat - s.inp.lo.toNat + 1 ≤ i → o.y.getLsbD i = false) ∧
      o.reading = .value ⟨s.inp.hi.toNat - s.inp.lo.toNat + 1, Nat.le_add_left 1 _,
        o.y.setWidth (s.inp.hi.toNat - s.inp.lo.toNat + 1)⟩ false false

/-- R93 and R116: every other range raises `InvalidRange`, the bounds violated on `EINFO`, and no slice is produced;
over integer indices exactly the ranges `0 <= lo <= hi < N` give a value, and the error names the bounds violated (its
third mark, for a negative index, is the model's own, log entry 9, and is left open here). -/
def Obligations.IllegalSliceRaisesInvalidRange : Prop :=
  (∀ s : State, s.params.wellFormed = true → (s.inp.hi.toNat < s.inp.lo.toNat ∨ s.params.n ≤ s.inp.hi.toNat) →
    ∃ o : Outputs s.params, exec .slice s = .next { s with out := o } ∧
      o.err = 4 ∧ o.NoValue ∧ o.NoFlags ∧ o.HasText [] ∧
      (o.einfo.getLsbD 0 = true ↔ s.inp.hi.toNat < s.inp.lo.toNat) ∧
      (o.einfo.getLsbD 1 = true ↔ s.params.n ≤ s.inp.hi.toNat)) ∧
  (∀ (v : Value) (hi lo : Int), (∃ w, sliceValue v hi lo = .ok w) ↔ 0 ≤ lo ∧ lo ≤ hi ∧ hi < v.width) ∧
  (∀ (v : Value) (hi lo : Int), ¬ (0 ≤ lo ∧ lo ≤ hi ∧ hi < v.width) →
    ∃ z, sliceValue v hi lo = .error (.invalidRange (decide (hi < lo)) (decide (v.width ≤ hi)) z))

/-- The numeric reading of a slice, derived in R92, and its sign bit, which is bit `hi` of the source. -/
def Obligations.SliceIsAQuotientAndRemainder : Prop :=
  ∀ s : State, s.params.wellFormed = true → s.inp.lo.toNat ≤ s.inp.hi.toNat → s.inp.hi.toNat < s.params.n →
    ∃ o : Outputs s.params, exec .slice s = .next { s with out := o } ∧
      o.y.toNat = s.inp.a.toNat / 2 ^ s.inp.lo.toNat % 2 ^ (s.inp.hi.toNat - s.inp.lo.toNat + 1) ∧
      o.y.getLsbD (o.yw.toNat - 1) = s.inp.a.getLsbD s.inp.hi.toNat

/-- R96, derived in the spec: SLICE at `hi = lo = i` is the block's form of `get(a, i)`; at `i >= N` the block raises
`InvalidRange` with `EINFO = 10` where `get` names `IndexOutOfBounds`. -/
def Obligations.SingleBitSliceIsGet : Prop :=
  ∀ (s : State) (h : s.params.wellFormed = true), s.inp.hi = s.inp.lo →
    (s.inp.lo.toNat < s.params.n → ∃ o : Outputs s.params, exec .slice s = .next { s with out := o } ∧
      o.yw.toNat = 1 ∧ getBit (s.valueA h) s.inp.lo.toNat = .ok (o.y.getLsbD 0)) ∧
    (s.params.n ≤ s.inp.lo.toNat → ∃ o : Outputs s.params, exec .slice s = .next { s with out := o } ∧
      o.err = 4 ∧ o.einfo = 0b10#2 ∧ getBit (s.valueA h) s.inp.lo.toNat = .error (.indexOutOfBounds s.inp.lo.toNat))

/-! ## Format: BIN, UDEC, SDEC, UHEX, SHEX, FMT -/

/-- R100 with R98: UDEC drives the decimal numeral of the unsigned reading, no leading zero, no sign. -/
def Obligations.UdecDrivesTheUnsignedNumeral : Prop :=
  decode 0b11001#5 = .ok .udec ∧
  ∀ s : State, s.params.wellFormed = true → ∃ (o : Outputs s.params) (t : Text),
    exec .udec s = .next { s with out := o } ∧ o.OnlyText t ∧ IsDecNumeral t ∧ readDec t = s.inp.a.toNat ∧
    t.length ≤ digits (2 ^ s.params.n - 1)

/-- R101: SDEC drives the decimal numeral of the signed reading, a minus sign before the magnitude exactly when it is
negative. -/
def Obligations.SdecDrivesTheSignedNumeral : Prop :=
  decode 0b11010#5 = .ok .sdec ∧
  ∀ s : State, s.params.wellFormed = true → ∃ (o : Outputs s.params) (m : Text),
    exec .sdec s = .next { s with out := o } ∧ IsDecNumeral m ∧
    (0 ≤ s.inp.a.toInt → o.OnlyText m ∧ (readDec m : Int) = s.inp.a.toInt) ∧
    (s.inp.a.toInt < 0 → o.OnlyText ('-' :: m) ∧ (readDec m : Int) = -s.inp.a.toInt)

/-- R102 with R99: UHEX drives `0x` and exactly `ceil(N/4)` lowercase digits of the unsigned reading. -/
def Obligations.UhexDrivesThePaddedNumeral : Prop :=
  decode 0b11011#5 = .ok .uhex ∧
  ∀ s : State, s.params.wellFormed = true → ∃ (o : Outputs s.params) (t : Text),
    exec .uhex s = .next { s with out := o } ∧ o.OnlyText ('0' :: 'x' :: t) ∧
    IsHexNumeral ((s.params.n + 3) / 4) t ∧ readHex t = s.inp.a.toNat

/-- R103: SHEX is UHEX when the sign bit is 0, else a minus sign, `0x` and the padded magnitude, which is between 1
and `2^(N-1)`. -/
def Obligations.ShexDrivesTheSignedPaddedNumeral : Prop :=
  decode 0b11100#5 = .ok .shex ∧
  ∀ s : State, s.params.wellFormed = true → ∃ (o : Outputs s.params) (t : Text),
    exec .shex s = .next { s with out := o } ∧ IsHexNumeral ((s.params.n + 3) / 4) t ∧
    (0 ≤ s.inp.a.toInt → o.OnlyText ('0' :: 'x' :: t) ∧ (readHex t : Int) = s.inp.a.toInt) ∧
    (s.inp.a.toInt < 0 → o.OnlyText ('-' :: '0' :: 'x' :: t) ∧ (readHex t : Int) = -s.inp.a.toInt ∧
      1 ≤ readHex t ∧ readHex t ≤ 2 ^ (s.params.n - 1))

/-- R104: BIN drives the bits high to low; counted from the right, every fifth character is the single separating
space, so groups are counted from bit 0 and there is no leading or trailing space. -/
def Obligations.BinGroupsBitsInFours : Prop :=
  decode 0b11000#5 = .ok .bin ∧
  ∀ s : State, s.params.wellFormed = true → ∃ (o : Outputs s.params) (t : Text),
    exec .bin s = .next { s with out := o } ∧ o.OnlyText t ∧
    t.length = s.params.n + (s.params.n + 3) / 4 - 1 ∧
    ∀ j < t.length, t.reverse[j]? = some (if j % 5 = 4 then ' '
      else if s.inp.a.getLsbD (4 * (j / 5) + j % 5) then '1' else '0')

/-- R105: FMT drives the canonical combined form of the width and of the five texts that BIN, UDEC, SDEC, UHEX and
SHEX drive for the same operand. -/
def Obligations.FmtAssemblesTheFiveFields : Prop :=
  decode 0b11101#5 = .ok .fmt ∧
  ∀ s : State, s.params.wellFormed = true →
    ∃ (o ob ou od oh ox : Outputs s.params) (w b u d h x : Text),
      exec .fmt s = .next { s with out := o } ∧
      exec .bin s = .next { s with out := ob } ∧ ob.OnlyText b ∧
      exec .udec s = .next { s with out := ou } ∧ ou.OnlyText u ∧
      exec .sdec s = .next { s with out := od } ∧ od.OnlyText d ∧
      exec .uhex s = .next { s with out := oh } ∧ oh.OnlyText h ∧
      exec .shex s = .next { s with out := ox } ∧ ox.OnlyText x ∧
      IsDecNumeral w ∧ readDec w = s.params.n ∧
      o.OnlyText ("Bits<".toList ++ w ++ ['>', Char.ofNat 0x7B, ' '] ++ b ++ " | dec ".toList ++ u ++ ['/'] ++ d
        ++ " | hex ".toList ++ h ++ ['/'] ++ x ++ [' ', Char.ofNat 0x7D])

/-- R106, derived in the spec: the length on `TLEN` of each text, and that none exceeds the lanes of the port. -/
def Obligations.TextLengthsFitThePort : Prop :=
  ∀ s : State, s.params.wellFormed = true →
    (∃ o : Outputs s.params, exec .bin s = .next { s with out := o } ∧
      o.tlen.toNat = s.params.n + hexDigits s.params.n - 1) ∧
    (∃ o : Outputs s.params, exec .udec s = .next { s with out := o } ∧
      1 ≤ o.tlen.toNat ∧ o.tlen.toNat ≤ digits (2 ^ s.params.n - 1)) ∧
    (∃ o : Outputs s.params, exec .sdec s = .next { s with out := o } ∧
      1 ≤ o.tlen.toNat ∧ o.tlen.toNat ≤ 1 + digits (2 ^ (s.params.n - 1))) ∧
    (∃ o : Outputs s.params, exec .uhex s = .next { s with out := o } ∧
      o.tlen.toNat = 2 + hexDigits s.params.n) ∧
    (∃ o : Outputs s.params, exec .shex s = .next { s with out := o } ∧
      o.tlen.toNat = (if s.inp.a.getLsbD (s.params.n - 1) then 3 else 2) + hexDigits s.params.n) ∧
    (∃ o : Outputs s.params, exec .fmt s = .next { s with out := o } ∧
      o.tlen.toNat ≤ lfmt s.params.n ∧ lfmt s.params.n ≤ s.params.tmax)

/-- R63: for every text of exactly `N` digits, the binary field of its parsed value, spaces removed, is the text. -/
def Obligations.BinaryFieldOfParsedTextIsTheText : Prop :=
  ∀ (s : State) (t : Text) (h : s.params.wellFormed = true), t.length = s.params.n → (∀ c ∈ t, c = '0' ∨ c = '1') →
    ∃ (v : BitVec s.params.n) (o : Outputs s.params) (b : Text),
      parse s.params.n (Config.Params.width_pos h) t = .ok v ∧
      exec .bin { s with inp := { s.inp with a := v } } =
        .next { s with inp := { s.inp with a := v }, out := o } ∧
      o.OnlyText b ∧ b.filter (· ≠ ' ') = t

/-- R108's second clause, derived in the spec: parsing the text that BIN drives gives the operand back. -/
def Obligations.ParsingTheBinaryFieldGivesTheOperand : Prop :=
  ∀ (s : State) (h : s.params.wellFormed = true), ∃ (o : Outputs s.params) (b : Text),
    exec .bin s = .next { s with out := o } ∧ o.OnlyText b ∧
    parse s.params.n (Config.Params.width_pos h) b = .ok s.inp.a

/-- R111, general knowledge the spec marks as such: a double-dabble network of `digits(2^N - 1)` BCD digits with
leading zeros suppressed gives the text of UDEC. -/
def Obligations.DoubleDabbleEqualsUdec : Prop :=
  ∀ s : State, s.params.wellFormed = true → ∃ o : Outputs s.params,
    exec .udec s = .next { s with out := o } ∧ o.OnlyText (dabbleText s.inp.a)

/-! ## Encoding and the step -/

/-- Words written out from the table of R48 decode to their operations, one of each class and the last of each. -/
def Obligations.TableWordsDecode : Prop :=
  decodeTableWord 5 0x02 = some .mul ∧ decodeTableWord 5 0x08 = some .and ∧ decodeTableWord 5 0x0B = some .not ∧
  decodeTableWord 5 0x12 = some .sar ∧ decodeTableWord 5 0x13 = some .slice ∧ decodeTableWord 5 0x18 = some .bin ∧
  decodeTableWord 8 0x1D = some .fmt ∧ decodeTableWord 8 0x1E = none

/-- R46, R48, R49: the encoder of the class and function fields and the decoder of the table are inverse, so no two
operations share a word, and exactly fifteen words are reserved. -/
def Obligations.DecodeAndEncodeAreInverse : Prop :=
  (∀ i : Instr, decode (encode i) = .ok i) ∧
  (∀ (op : OpWord) (i : Instr), decode op = .ok i → encode i = op) ∧
  (∀ op : OpWord, decode op = .error (.reserved op) ↔
    op.toNat ∈ [3, 4, 5, 6, 7, 12, 13, 14, 15, 20, 21, 22, 23, 30, 31])

/-- R28, R44, R48: the operation a step runs is the one `OP` selects; a word driven on `OP` is run next, with every
other input as it was. -/
def Obligations.StepRunsTheDecodedOperation : Prop :=
  (∀ (s : State) (i : Instr), s.params.wellFormed = true → decode s.inp.op = .ok i → step s = exec i s) ∧
  (∀ (s : State) (nbits w : Nat) (i : Instr), s.params.wellFormed = true → decodeTableWord nbits w = some i →
    step (s.withFetchWord nbits w) = exec i (s.present { s.inp with op := opOfWord nbits w }))

/-- R118, R119 with R49: a reserved `OP` raises `IllegalOp`: code 6, no detail, no value, no flag, no text; and every
other `OP` is an operation. That the step answers a next state carrying the error, where R49 also says that a model
should refuse or fault, is the model's reading (log entry 5). -/
def Obligations.ReservedOpRaisesIllegalOp : Prop :=
  ∀ s : State, s.params.wellFormed = true →
    (s.inp.op.toNat ∈ [3, 4, 5, 6, 7, 12, 13, 14, 15, 20, 21, 22, 23, 30, 31] →
      ∃ o : Outputs s.params, step s = .next { s with out := o } ∧
        o.err = 6 ∧ o.einfo = 0 ∧ o.NoValue ∧ o.NoFlags ∧ o.HasText [] ∧ o.reading = .error 6 0) ∧
    (s.inp.op.toNat ∉ [3, 4, 5, 6, 7, 12, 13, 14, 15, 20, 21, 22, 23, 30, 31] →
      ∃ i, decode s.inp.op = .ok i ∧ step s = exec i s)

/-- R120 and R127, derived in the spec: which transaction raises which error at the ports. -/
def Obligations.OnlySliceAndReservedOpsRaiseErrors : Prop :=
  ∀ s : State, s.params.wellFormed = true → ∃ o : Outputs s.params, step s = .next { s with out := o } ∧
    (o.err = 6 ↔ s.inp.op.toNat ∈ [3, 4, 5, 6, 7, 12, 13, 14, 15, 20, 21, 22, 23, 30, 31]) ∧
    (o.err = 4 ↔ s.inp.op = 0b10011#5 ∧ (s.inp.hi.toNat < s.inp.lo.toNat ∨ s.params.n ≤ s.inp.hi.toNat)) ∧
    (o.err = 0 ∨ o.err = 4 ∨ o.err = 6) ∧
    (o.einfo ≠ 0 ↔ o.err = 4)

/-- R50: the outputs an operation does not produce carry 0, and the inputs it does not use do not matter. -/
def Obligations.UnusedPortsFollowTheTable : Prop :=
  ∀ (s : State) (i : Instr) (inp : Inputs s.params), s.params.wellFormed = true → decode s.inp.op = .ok i →
    inp.op = s.inp.op → (∀ port ∈ usedPorts i, s.inp.AgreeOn inp port) →
    ∃ o : Outputs s.params,
      step s = .next { s with out := o } ∧ step { s with inp := inp } = .next { s with inp := inp, out := o } ∧
      (o.err = 0 → o.einfo = 0 ∧
        (i ∉ [Instr.add, .sub, .mul] → o.NoFlags) ∧
        (i ∈ [Instr.bin, .udec, .sdec, .uhex, .shex, .fmt] → o.NoValue ∧
          ∀ j (h : j < s.params.tmax), o.tlen.toNat ≤ j → o.txt[j] = 0) ∧
        (i ∉ [Instr.bin, .udec, .sdec, .uhex, .shex, .fmt] → o.HasText []) ∧
        (i ∉ [Instr.slice, .bin, .udec, .sdec, .uhex, .shex, .fmt] → o.yw.toNat = s.params.n) ∧
        (i = .slice → o.yw.toNat = s.inp.hi.toNat - s.inp.lo.toNat + 1 ∧
          ∀ j, o.yw.toNat ≤ j → o.y.getLsbD j = false))

/-- R136, R16, R20: on a legal instance a step always answers a next state that differs in the outputs alone: it
never faults or refuses, alters no input and never changes the width; an instance outside R7 is refused. -/
def Obligations.StepIsTotalAndChangesOnlyOutputs : Prop :=
  (∀ s : State, s.params.wellFormed = true → ∃ o : Outputs s.params, step s = .next { s with out := o }) ∧
  (∀ (s : State) (f : Fault), step s ≠ .fault f) ∧
  (∀ s : State, step s = .refused .illegalParameters ↔
    ¬ (1 ≤ s.params.n ∧ 1 ≤ s.params.kw ∧ 1 ≤ s.params.iw ∧ s.params.n ≤ 2 ^ s.params.iw ∧
      s.params.n < 2 ^ s.params.ww ∧ lfmt s.params.n ≤ s.params.tmax ∧ s.params.tmax < 2 ^ s.params.tlw))

/-- The invariant of every step: after a step the instance is legal and its outputs are legal, whatever they held
before (R50, R95, R106, R107, R116, R118, R120): exactly one of a value, a text of the block's alphabet that fits the
port, an error; nothing beside it. -/
def Obligations.OutputsAreLegalAfterEveryStep : Prop :=
  ∀ s t : State, step s = .next t → t.Inv

/-- The state the model names as reset meets the invariant, and its outputs are the function of its inputs (R131);
the parameters and input values of that state are the model's choice (log entries 2, 3). -/
def Obligations.ResetIsLegalAndSettled : Prop :=
  State.reset.Inv ∧ State.reset.Settled

/-- R32, R42: two transactions with equal inputs give equal outputs, whatever the outputs held and however many
transactions ran before. -/
def Obligations.OutputsDependOnThePresentInputsOnly : Prop :=
  ∀ (p : Config.Params) (inp : Inputs p) (o₁ o₂ : Outputs p) (m₁ m₂ : Nat), p.wellFormed = true →
    ∃ o : Outputs p, step ⟨p, inp, o₁, m₁⟩ = .next ⟨p, inp, o, m₁⟩ ∧ step ⟨p, inp, o₂, m₂⟩ = .next ⟨p, inp, o, m₂⟩

/-- R40: repeating a transaction with the same inputs repeats the same outputs. -/
def Obligations.RepeatingATransactionRepeatsItsOutputs : Prop :=
  ∀ s t : State, step s = .next t → t.Settled

/-- R42, R124: a program of transactions ends in the outputs of its last one, whatever ran before and whatever errors
it raised; only the model's `moment` counts them. -/
def Obligations.TheLastTransactionDecides : Prop :=
  ∀ (s : State) (xs : List Transaction) (x : Transaction), s.params.wellFormed = true →
    (∀ y ∈ xs, y.Fits s.params) → x.Fits s.params →
    ∃ t : State, runTransactions s [x] = .next t ∧ t.params = s.params ∧
      runTransactions s (xs ++ [x]) = .next { t with moment := s.moment + xs.length + 1 }

/-! ## Host-side functions -/

/-- R57 to R60: parsing is total and gives exactly one of a value (the bits of the digits, high to low),
`InvalidDigit` with the leftmost offending significant character and its position, or, when all are digits,
`LengthMismatch` with the two counts. -/
def Obligations.ParserAnswersExactlyOneWay : Prop :=
  ∀ (n : Nat) (pos : 1 ≤ n) (t : Text),
    (∀ v : BitVec n, parse n pos t = .ok v ↔ (∀ c ∈ significant t, c = '0' ∨ c = '1') ∧ (significant t).length = n ∧
      ∀ i < n, (v.getLsbD i = true ↔ (significant t)[n - 1 - i]? = some '1')) ∧
    (∀ (c : Char) (q : Nat), parse n pos t = .error (.invalidDigit c q) ↔ (significant t)[q]? = some c ∧
      c ≠ '0' ∧ c ≠ '1' ∧ ∀ r < q, ∀ d, (significant t)[r]? = some d → d = '0' ∨ d = '1') ∧
    (∀ e a : Nat, parse n pos t = .error (.lengthMismatch e a) ↔ (∀ c ∈ significant t, c = '0' ∨ c = '1') ∧
      (significant t).length ≠ n ∧ e = n ∧ a = (significant t).length) ∧
    ((∃ v, parse n pos t = .ok v) ∨ (∃ c q, parse n pos t = .error (.invalidDigit c q)) ∨
      (∃ e a, parse n pos t = .error (.lengthMismatch e a)))

/-- R54: a space or an underscore anywhere in a text changes nothing, and any other character that is no digit makes
the text an `InvalidDigit`. -/
def Obligations.OnlySpaceAndUnderscoreSeparate : Prop :=
  (∀ (n : Nat) (pos : 1 ≤ n) (t u : Text) (c : Char), c = ' ' ∨ c = '_' → parse n pos (t ++ c :: u) = parse n pos (t ++ u)) ∧
  (∀ (n : Nat) (pos : 1 ≤ n) (t : Text) (c : Char), c ∈ t → c ≠ '0' → c ≠ '1' → c ≠ ' ' → c ≠ '_' →
    ∃ d q, parse n pos t = .error (.invalidDigit d q))

/-- R22, R23: inside `[0, N)` `get` reads the bit and `set` gives a value of the same width with that bit replaced and
no other; outside, both are `IndexOutOfBounds` (log entry 11). -/
def Obligations.AccessorsReadAndReplaceOneBit : Prop :=
  ∀ (a : Value) (i : Int) (b : Bool),
    (0 ≤ i ∧ i < a.width → getBit a i = .ok (a.bits.getLsbD i.toNat) ∧
      ∃ a' : Value, setBit a i b = .ok a' ∧ a'.width = a.width ∧ getBit a' i = .ok b ∧
        ∀ j : Int, 0 ≤ j → j < a.width → j ≠ i → getBit a' j = getBit a j) ∧
    (i < 0 ∨ a.width ≤ i → getBit a i = .error (.indexOutOfBounds i) ∧ setBit a i b = .error (.indexOutOfBounds i))

/-- R24: the constructors: all-zero, all-one, and an explicit sequence whose position `i` becomes bit `i` and whose
length must be `N`. -/
def Obligations.ConstructorsBuildTheirBits : Prop :=
  ∀ (n : Nat) (pos : 1 ≤ n),
    (zeros n pos).toNat = 0 ∧ (ones n pos).toNat = 2 ^ n - 1 ∧ (ones n pos).toInt = -1 ∧
    (∀ l : List Bool, l.length = n →
      ∃ a : BitVec n, fromBits n pos l = .ok a ∧ ∀ i < n, some (a.getLsbD i) = l[i]?) ∧
    (∀ l : List Bool, l.length ≠ n → fromBits n pos l = .error (.widthMismatch n l.length))

/-- R75, R113: at the value level the six two-operand operations give `WidthMismatch` with the two widths for
operands of different widths and a value of the common width otherwise, and the block never raises it. -/
def Obligations.WidthsMustMatch : Prop :=
  (∀ (i : Instr) (a b : Value) (k : Nat) (hi lo : Int), i ∈ [Instr.add, .sub, .mul, .and, .or, .xor] →
    (a.width ≠ b.width → valueOp i a b k hi lo = .error (.widthMismatch a.width b.width)) ∧
    (a.width = b.width → ∃ v u w, valueOp i a b k hi lo = .ok (.value v u w) ∧ v.width = a.width)) ∧
  (∀ s t : State, step s = .next t → t.out.err ≠ 1)

/-- R52: the aliases are the value-level operations, each taking the pair or the result the alias names; `slice(v, hi,
lo)`, `v.extract(hi, lo)` and `v[hi:lo]` are one function here, and `parse` is the parser itself. -/
def Obligations.AliasesNameTheOperations : Prop :=
  ∀ (a b : Value) (k : Nat) (hi lo : Int),
    (∀ v u w, valueOp .add a b k hi lo = .ok (.value v u w) → unsignedAdd a b = .ok (v, u) ∧ signedAdd a b = .ok (v, w)) ∧
    (∀ v u w, valueOp .sub a b k hi lo = .ok (.value v u w) → unsignedSub a b = .ok (v, u) ∧ signedSub a b = .ok (v, w)) ∧
    (∀ v u w, valueOp .mul a b k hi lo = .ok (.value v u w) → unsignedMul a b = .ok (v, u) ∧ signedMul a b = .ok (v, w)) ∧
    (∀ e, valueOp .add a b k hi lo = .error e →
      unsignedAdd a b = .error e ∧ signedAdd a b = .error e ∧ unsignedSub a b = .error e ∧ signedSub a b = .error e ∧
      unsignedMul a b = .error e ∧ signedMul a b = .error e) ∧
    valueOp .shl a b k hi lo = .ok (.value (shiftLeft a k) false false) ∧
    valueOp .shr a b k hi lo = .ok (.value (shiftRight a k) false false) ∧
    (∀ v, extract a hi lo = .ok v ↔ valueOp .slice a b k hi lo = .ok (.value v false false)) ∧
    (∀ e, extract a hi lo = .error e ↔ valueOp .slice a b k hi lo = .error e) ∧
    valueOp .fmt a b k hi lo = .ok (.text (formatValue a)) ∧
    unsignedValue a = a.bits.toNat ∧
    (∀ i : Int, 0 ≤ i → i < a.width → ∃ v : Value, valueOp .slice a b k i i = .ok (.value v false false) ∧
      v.width = 1 ∧ getBit a i = .ok (v.bits.getLsbD 0))

/-- R34: the port form is the packaging of the value form: what the host reads off the ports after an operation is
the value-level result on the same operands, error, value with its width and flags, or text. -/
def Obligations.PortsRefineTheValueOperations : Prop :=
  ∀ (s : State) (i : Instr) (h : s.params.wellFormed = true), ∃ o : Outputs s.params,
    exec i s = .next { s with out := o } ∧
    o.reading = readingOf (valueOp i (s.valueA h) (s.valueB h) s.inp.k.toNat s.inp.hi.toNat s.inp.lo.toNat)

/-- R8, R20, R94, R135 with the model's wiring functions (log entries 4, 10, 12): a value of the port's width is
presented unchanged and every other input kept, a value of another width is never extended or cut to fit, an output
wired straight back is refused, and an instance outside R7 is not there to be wired. -/
def Obligations.WiringNeverChangesAWidth : Prop :=
  (∀ s : State, s.params.wellFormed = true →
    (∀ v : Value, v.width = s.params.n →
      (∃ x o, s.connectA (.held v) =
          .next { s with inp := { s.inp with a := x }, out := o, moment := s.moment + 1 } ∧ x.toNat = v.bits.toNat) ∧
      (∃ x o, s.connectB (.held v) =
          .next { s with inp := { s.inp with b := x }, out := o, moment := s.moment + 1 } ∧ x.toNat = v.bits.toNat)) ∧
    (∀ v : Value, v.width ≠ s.params.n →
      s.connectA (.held v) = .fault (.widthMismatch s.params.n v.width) ∧
      s.connectB (.held v) = .fault (.widthMismatch s.params.n v.width)) ∧
    s.connectA .ownOutput = .refused .combinationalLoop ∧ s.connectB .ownOutput = .refused .combinationalLoop) ∧
  (∀ (s : State) (src : Source), s.params.wellFormed = false →
    s.connectA src = .refused .illegalParameters ∧ s.connectB src = .refused .illegalParameters)

/-- R62, R128: a text that parses is loaded on port `A` or `B` as its value, every other input kept; one that does not
is the parser's error, and nothing is presented. -/
def Obligations.LoadingATextPresentsItsValue : Prop :=
  ∀ (s : State) (t : Text) (h : s.params.wellFormed = true),
    (∀ v, parse s.params.n (Config.Params.width_pos h) t = .ok v →
      (∃ o, s.loadA t = .next { s with inp := { s.inp with a := v }, out := o, moment := s.moment + 1 }) ∧
      (∃ o, s.loadB t = .next { s with inp := { s.inp with b := v }, out := o, moment := s.moment + 1 })) ∧
    (∀ e, parse s.params.n (Config.Params.width_pos h) t = .error e → s.loadA t = .fault e ∧ s.loadB t = .fault e)

/-- R51, R75, R128, R133: driving a transaction puts every operand and number on its port unchanged when each fits;
an operand of another width or a number with more bits than its port has wires is a fault (log entries 10, 18), never
cut to fit, and a program stops there. -/
def Obligations.DrivingNeverCutsAnOperand : Prop :=
  ∀ (s : State) (x : Transaction), s.params.wellFormed = true →
    (x.Fits s.params → ∃ (inp : Inputs s.params) (o : Outputs s.params),
      s.drive x = .next ⟨s.params, inp, o, s.moment + 1⟩ ∧ inp.op = x.op ∧
      inp.a.toNat = x.a.bits.toNat ∧ inp.b.toNat = x.b.bits.toNat ∧
      inp.k.toNat = x.k ∧ inp.hi.toNat = x.hi ∧ inp.lo.toNat = x.lo) ∧
    (x.a.width ≠ s.params.n → s.drive x = .fault (.widthMismatch s.params.n x.a.width)) ∧
    (x.a.width = s.params.n → x.b.width ≠ s.params.n → s.drive x = .fault (.widthMismatch s.params.n x.b.width)) ∧
    (¬ x.Fits s.params → ∃ f, s.drive x = .fault f ∧ ∀ xs, runTransactions s (x :: xs) = .fault f)
end

