-- ==== Sys2Proof/Laws/Bits.lean ====
section
/-! SUPPORT. The small lemmas of R9's readings and of values built bit by bit. -/

namespace Sys2Proof.Machine

variable {n : Nat}

@[simp] theorem getLsbD_ofBits (n : Nat) (f : Nat → Bool) (i : Nat) :
    (ofBits n f).getLsbD i = (decide (i < n) && f i) := by
  induction n with
  | zero => simp [ofBits]
  | succ n ih =>
    rw [ofBits, BitVec.getLsbD_cons, ih]
    by_cases h : i = n
    · simp [h]
    · by_cases h' : i < n
      · have : i < n + 1 := by omega
        simp [h, h', this]
      · have : ¬ i < n + 1 := by omega
        simp [h, h', this]

@[simp] theorem getElem_ofBits (n : Nat) (f : Nat → Bool) (i : Nat) (h : i < n) : (ofBits n f)[i] = f i := by
  rw [← BitVec.getLsbD_eq_getElem, getLsbD_ofBits]; simp [h]

@[simp] theorem opA_eq (s : State) : opA s = s.inp.a := rfl

@[simp] theorem opB_eq (s : State) : opB s = s.inp.b := rfl

@[simp] theorem count_eq (s : State) : count s = s.inp.k.toNat := rfl

@[simp] theorem upper_eq (s : State) : upper s = s.inp.hi.toNat := rfl

@[simp] theorem lower_eq (s : State) : lower s = s.inp.lo.toNat := rfl

theorem eq_of_bits {a b : BitVec n} (h : ∀ i, i < n → a.getLsbD i = b.getLsbD i) : a = b :=
  BitVec.eq_of_getLsbD_eq h

theorem uval_lt (a : BitVec n) : uval a < 2 ^ n := a.isLt

theorem sign_eq_msb (a : BitVec n) : sign a = a.msb := by
  cases n with
  | zero => simp [sign, BitVec.of_length_zero]
  | succ n => simp [sign, BitVec.msb_eq_getLsbD_last]

theorem sval_eq_toInt (a : BitVec n) : sval a = a.toInt := by
  rw [sval, sign_eq_msb, BitVec.toInt_eq_msb_cond, uval]
  cases a.msb <;> simp

theorem uval_bv (n : Nat) (x : Int) : (uval (bv n x) : Int) = x % 2 ^ n := by
  simp [uval, bv, BitVec.toNat_ofInt, Int.toNat_of_nonneg (Int.emod_nonneg x (by positivity : (2 : Int) ^ n ≠ 0))]

theorem uval_bv_natCast (n x : Nat) : uval (bv n x) = x % 2 ^ n := by
  have := uval_bv n (x : Int)
  exact_mod_cast this

theorem sign_iff_half_le (a : BitVec n) : sign a = true ↔ 2 ^ (n - 1) ≤ uval a := by
  rw [sign_eq_msb, BitVec.msb_eq_decide, decide_eq_true_iff, uval]

theorem sval_of_sign_false {a : BitVec n} (h : sign a = false) : sval a = uval a := by simp [sval, h]

theorem sval_of_sign_true {a : BitVec n} (h : sign a = true) : sval a = uval a - 2 ^ n := by simp [sval, h]

theorem uval_addBits (a b : BitVec n) : uval (addBits a b) = (uval a + uval b) % 2 ^ n := by
  have := uval_bv_natCast n (uval a + uval b)
  rw [addBits, ← this]; push_cast; rfl

theorem uval_mulBits (a b : BitVec n) : uval (mulBits a b) = (uval a * uval b) % 2 ^ n := by
  have := uval_bv_natCast n (uval a * uval b)
  rw [mulBits, ← this]; push_cast; rfl

theorem uval_subBits (a b : BitVec n) : (uval (subBits a b) : Int) = ((uval a : Int) - uval b) % 2 ^ n :=
  uval_bv n _

theorem addBits_eq_add (a b : BitVec n) : addBits a b = a + b :=
  BitVec.eq_of_toNat_eq (by simpa [uval] using uval_addBits a b)

theorem subBits_eq_sub (a b : BitVec n) : subBits a b = a - b := by
  apply BitVec.eq_of_toNat_eq
  have h := uval_subBits a b
  have hb := b.isLt
  rw [uval, uval, uval, ← Int.add_emod_left] at h
  rw [BitVec.toNat_sub]
  zify [hb.le]
  rw [h]
  congr 1
  ring

theorem mulBits_eq_mul (a b : BitVec n) : mulBits a b = a * b :=
  BitVec.eq_of_toNat_eq (by simpa [uval] using uval_mulBits a b)

theorem addUovf_iff (a b : BitVec n) : addUovf a b = true ↔ 2 ^ n ≤ a.toNat + b.toNat := by
  rw [addUovf, decide_eq_true_iff]; rfl

theorem addSovf_iff (a b r : BitVec n) : addSovf a b r = true ↔
    a.getLsbD (n - 1) = b.getLsbD (n - 1) ∧ r.getLsbD (n - 1) ≠ a.getLsbD (n - 1) := by
  simp [addSovf, sign]

theorem subUovf_iff (a b : BitVec n) : subUovf a b = true ↔ a.toNat < b.toNat := by
  rw [subUovf, decide_eq_true_iff]; rfl

theorem subSovf_iff (a b r : BitVec n) : subSovf a b r = true ↔
    a.getLsbD (n - 1) ≠ b.getLsbD (n - 1) ∧ r.getLsbD (n - 1) ≠ a.getLsbD (n - 1) := by
  simp [subSovf, sign]

theorem mulUovf_iff (a b : BitVec n) : mulUovf a b = true ↔ 2 ^ n ≤ a.toNat * b.toNat := by
  rw [mulUovf, decide_eq_true_iff]; rfl

theorem mulSovf_iff (a b r : BitVec n) : mulSovf a b r = true ↔ r.toInt ≠ a.toInt * b.toInt := by
  simp [mulSovf, sval_eq_toInt]

theorem getLsbD_shlBits (a : BitVec n) (k i : Nat) :
    (shlBits a k).getLsbD i = (decide (i < n) && (decide (k ≤ i) && a.getLsbD (i - k))) := by
  by_cases h : k ≤ i <;> simp [shlBits, h]

theorem getLsbD_shrBits (a : BitVec n) (k i : Nat) :
    (shrBits a k).getLsbD i = (decide (i < n) && a.getLsbD (i + k)) := by
  by_cases h : i + k < n
  · simp [shrBits, h]
  · simp [shrBits, h, BitVec.getLsbD_of_ge a (i + k) (by omega)]

theorem getLsbD_sarBits (a : BitVec n) (k i : Nat) :
    (sarBits a k).getLsbD i = (decide (i < n) && if i + k < n then a.getLsbD (i + k) else sign a) := by
  simp [sarBits]

theorem getLsbD_sliceBits (a : BitVec n) (hi lo i : Nat) :
    (sliceBits a hi lo).getLsbD i = (decide (i < hi - lo + 1) && a.getLsbD (lo + i)) := by
  simp [sliceBits, BitVec.getLsbD_extractLsb']

end Sys2Proof.Machine
end

