-- ==== Sys2Proof/Laws/Decode.lean ====
section
/-! SUPPORT. The decoder's two outcomes on every word. -/

namespace Sys2Proof

/-- A word either decodes to an operation that encodes to it, or is refused under its own name (R48, R49). -/
theorem decode_cases (op : OpWord) :
    (∃ i, decode op = .ok i ∧ encode i = op) ∨ decode op = .error (.reserved op) := by
  have all : ∀ op : OpWord, (match decode op with
      | .ok i => decide (encode i = op)
      | .error e => decide (e = .reserved op)) = true := by decide
  have h := all op
  cases hd : decode op with
  | ok i => exact .inl ⟨i, rfl, by simpa [hd] using h⟩
  | error e => exact .inr (by simpa [hd] using h)

end Sys2Proof
end

