-- ==== Sys2Proof/Laws/Exec.lean ====
section
/-! SUPPORT. One equation per operation: the next state it answers, in terms of the input ports. Later proofs cite
these and do not unfold `exec`. -/

namespace Sys2Proof.Machine

variable (s : State)

theorem exec_add : exec .add s = .next { s with
    out := Outputs.ofValue (addBits s.inp.a s.inp.b) s.params.n (addUovf s.inp.a s.inp.b) (addSovf s.inp.a s.inp.b (addBits s.inp.a s.inp.b)) } := rfl

theorem exec_sub : exec .sub s = .next { s with
    out := Outputs.ofValue (subBits s.inp.a s.inp.b) s.params.n (subUovf s.inp.a s.inp.b) (subSovf s.inp.a s.inp.b (subBits s.inp.a s.inp.b)) } := rfl

theorem exec_mul : exec .mul s = .next { s with
    out := Outputs.ofValue (mulBits s.inp.a s.inp.b) s.params.n (mulUovf s.inp.a s.inp.b) (mulSovf s.inp.a s.inp.b (mulBits s.inp.a s.inp.b)) } := rfl

theorem exec_and : exec .and s = .next { s with
    out := Outputs.ofValue (s.inp.a &&& s.inp.b) s.params.n false false } := rfl

theorem exec_or : exec .or s = .next { s with
    out := Outputs.ofValue (s.inp.a ||| s.inp.b) s.params.n false false } := rfl

theorem exec_xor : exec .xor s = .next { s with
    out := Outputs.ofValue (s.inp.a ^^^ s.inp.b) s.params.n false false } := rfl

theorem exec_not : exec .not s = .next { s with
    out := Outputs.ofValue (~~~s.inp.a) s.params.n false false } := rfl

theorem exec_shl : exec .shl s = .next { s with
    out := Outputs.ofValue (shlBits s.inp.a s.inp.k.toNat) s.params.n false false } := rfl

theorem exec_shr : exec .shr s = .next { s with
    out := Outputs.ofValue (shrBits s.inp.a s.inp.k.toNat) s.params.n false false } := rfl

theorem exec_sar : exec .sar s = .next { s with
    out := Outputs.ofValue (sarBits s.inp.a s.inp.k.toNat) s.params.n false false } := rfl

theorem exec_bin : exec .bin s = .next { s with out := Outputs.ofText s.params (binText s.inp.a) } := rfl

theorem exec_udec : exec .udec s = .next { s with out := Outputs.ofText s.params (udecText s.inp.a) } := rfl

theorem exec_sdec : exec .sdec s = .next { s with out := Outputs.ofText s.params (sdecText s.inp.a) } := rfl

theorem exec_uhex : exec .uhex s = .next { s with out := Outputs.ofText s.params (uhexText s.inp.a) } := rfl

theorem exec_shex : exec .shex s = .next { s with out := Outputs.ofText s.params (shexText s.inp.a) } := rfl

theorem exec_fmt : exec .fmt s = .next { s with out := Outputs.ofText s.params (fmtText s.inp.a) } := rfl

theorem exec_slice_illegal (h : s.inp.hi.toNat < s.inp.lo.toNat ∨ s.params.n ≤ s.inp.hi.toNat) :
    exec .slice s = .next { s with
      out := (Outputs.ofError s.params (.invalidRange (decide (s.inp.hi.toNat < s.inp.lo.toNat))
        (decide (s.params.n ≤ s.inp.hi.toNat)) false)) } :=
  if_pos h

theorem exec_slice_legal (h : ¬ (s.inp.hi.toNat < s.inp.lo.toNat ∨ s.params.n ≤ s.inp.hi.toNat)) :
    exec .slice s = .next { s with
      out := (Outputs.ofValue ((sliceBits s.inp.a s.inp.hi.toNat s.inp.lo.toNat).setWidth s.params.n)
        (s.inp.hi.toNat - s.inp.lo.toNat + 1) false false) } :=
  if_neg h

/-- Every operation answers a next state that differs in the outputs alone. -/
theorem exec_next (i : Instr) : ∃ o : Outputs s.params, exec i s = .next { s with out := o } := by
  cases i
  case slice =>
    by_cases h : s.inp.hi.toNat < s.inp.lo.toNat ∨ s.params.n ≤ s.inp.hi.toNat
    · exact ⟨_, exec_slice_illegal s h⟩
    · exact ⟨_, exec_slice_legal s h⟩
  all_goals exact ⟨_, rfl⟩

end Sys2Proof.Machine
end

