-- ==== Sys2Proof/Laws/Numeral.lean ====
section
/-! SUPPORT. What the numerals of R98 and R99 are: their recursion, their lengths, and what they read back as. -/

namespace Sys2Proof.Machine

theorem decDigits_acc (fuel x : Nat) (acc : Text) : decDigits fuel x acc = decDigits fuel x [] ++ acc := by
  induction fuel generalizing x acc with
  | zero => rfl
  | succ f ih =>
    by_cases hx : x < 10
    · simp [decDigits, hx]
    · simp only [decDigits, hx, if_false]
      rw [ih, ih _ [_], List.append_assoc]
      rfl

theorem decDigits_fuel (fuel fuel' x : Nat) (acc : Text) (h : x < fuel) (h' : x < fuel') :
    decDigits fuel x acc = decDigits fuel' x acc := by
  induction fuel generalizing fuel' x acc with
  | zero => omega
  | succ f ih =>
    obtain ⟨f', rfl⟩ : ∃ f', fuel' = f' + 1 := ⟨fuel' - 1, by omega⟩
    by_cases hx : x < 10
    · simp [decDigits, hx]
    · simp only [decDigits, hx, if_false]
      exact ih f' (x / 10) _ (by omega) (by omega)

theorem dec_of_lt {x : Nat} (h : x < 10) : dec x = [digitChar x] := by simp [dec, decDigits, h]

theorem dec_of_ge {x : Nat} (h : 10 ≤ x) : dec x = dec (x / 10) ++ [digitChar (x % 10)] := by
  conv_lhs => rw [dec, decDigits, if_neg (by omega)]
  rw [decDigits_acc, dec, decDigits_fuel x (x / 10 + 1) _ _ (by omega) (by omega)]

/-- The recursion of `dec`, as an induction principle. -/
theorem dec_induction {P : Nat → Prop} (small : ∀ x < 10, P x) (step : ∀ x, 10 ≤ x → P (x / 10) → P x)
    (x : Nat) : P x := by
  induction x using Nat.strong_induction_on with
  | _ x ih =>
    by_cases h : x < 10
    · exact small x h
    · exact step x (by omega) (ih _ (by omega))

theorem digits_pos (x : Nat) : 1 ≤ digits x := by
  rcases Nat.lt_or_ge x 10 with h | h
  · simp [digits, dec_of_lt h]
  · simp [digits, dec_of_ge h]

theorem digits_of_ge {x : Nat} (h : 10 ≤ x) : digits x = digits (x / 10) + 1 := by
  simp [digits, dec_of_ge h]

theorem digits_mono {x y : Nat} (h : x ≤ y) : digits x ≤ digits y := by
  induction y using dec_induction generalizing x with
  | small y hy => simp [digits, dec_of_lt (show x < 10 by omega), dec_of_lt hy]
  | step y hy ih =>
    rw [digits_of_ge hy]
    rcases Nat.lt_or_ge x 10 with hx | hx
    · simp [digits, dec_of_lt hx]
    · rw [digits_of_ge hx]
      have := ih (x := x / 10) (by omega)
      omega

theorem lt_pow_digits (x : Nat) : x < 10 ^ digits x := by
  induction x using dec_induction with
  | small x hx => simp [digits, dec_of_lt hx, hx]
  | step x hx ih => rw [digits_of_ge hx, pow_succ]; omega

theorem decValue_digitChar : ∀ d < 10, decValue (digitChar d) = d := by decide

theorem hexValue_digitChar : ∀ d < 16, hexValue (digitChar d) = d := by decide

theorem digitChar_dec_range : ∀ d < 10, '0' ≤ digitChar d ∧ digitChar d ≤ '9' := by decide

theorem digitChar_hex_range : ∀ d < 16,
    ('0' ≤ digitChar d ∧ digitChar d ≤ '9') ∨ ('a' ≤ digitChar d ∧ digitChar d ≤ 'f') := by decide

theorem digitChar_ne_zero : ∀ d < 10, digitChar d = '0' → d = 0 := by decide

theorem digitChar_mem_alphabet : ∀ d < 16, digitChar d ∈ alphabet := by decide

theorem readDec_append_singleton (t : Text) (c : Char) : readDec (t ++ [c]) = 10 * readDec t + decValue c := by
  simp [readDec, List.foldl_append]

@[simp] theorem readDec_dec (x : Nat) : readDec (dec x) = x := by
  induction x using dec_induction with
  | small x hx => simp [dec_of_lt hx, readDec, decValue_digitChar x hx]
  | step x hx ih =>
    rw [dec_of_ge hx, readDec_append_singleton, ih, decValue_digitChar _ (by omega)]
    omega

theorem dec_ne_nil (x : Nat) : dec x ≠ [] := by
  have := digits_pos x
  intro h
  simp [digits, h] at this

theorem dec_digit_range (x : Nat) : ∀ c ∈ dec x, ∃ d < 10, c = digitChar d := by
  induction x using dec_induction with
  | small x hx => simpa [dec_of_lt hx] using ⟨x, hx, rfl⟩
  | step x hx ih =>
    intro c hc
    rw [dec_of_ge hx, List.mem_append] at hc
    rcases hc with hc | hc
    · exact ih c hc
    · exact ⟨x % 10, by omega, by simpa using hc⟩

theorem dec_head_zero (x : Nat) (h : (dec x).head? = some '0') : x = 0 := by
  induction x using dec_induction with
  | small x hx =>
    rw [dec_of_lt hx] at h
    exact digitChar_ne_zero x hx (by simpa using h)
  | step x hx ih =>
    rw [dec_of_ge hx, List.head?_append_of_ne_nil _ (dec_ne_nil _)] at h
    have := ih h
    omega

theorem isDecNumeral_dec (x : Nat) : IsDecNumeral (dec x) := by
  refine ⟨dec_ne_nil x, fun c hc => ?_, fun h => ?_⟩
  · obtain ⟨d, hd, rfl⟩ := dec_digit_range x c hc
    exact digitChar_dec_range d hd
  · rw [dec_head_zero x h]
    decide

@[simp] theorem length_hex (D x : Nat) : (hex D x).length = D := by
  induction D with
  | zero => rfl
  | succ D ih => simp [hex, ih]

theorem hex_digit_range (D x : Nat) : ∀ c ∈ hex D x, ∃ d < 16, c = digitChar d := by
  induction D with
  | zero => simp [hex]
  | succ D ih =>
    intro c hc
    rw [hex, List.mem_cons] at hc
    rcases hc with rfl | hc
    · exact ⟨_, Nat.mod_lt _ (by norm_num), rfl⟩
    · exact ih c hc

theorem isHexNumeral_hex (D x : Nat) : IsHexNumeral D (hex D x) := by
  refine ⟨length_hex D x, fun c hc => ?_⟩
  obtain ⟨d, hd, rfl⟩ := hex_digit_range D x c hc
  exact digitChar_hex_range d hd

theorem foldl_hex (D x acc : Nat) :
    (hex D x).foldl (fun x c => 16 * x + hexValue c) acc = acc * 16 ^ D + x % 16 ^ D := by
  induction D generalizing acc with
  | zero => simp [hex, Nat.mod_one]
  | succ D ih =>
    rw [hex, List.foldl_cons, ih, hexValue_digitChar _ (Nat.mod_lt _ (by norm_num)), pow_succ,
      Nat.mod_mul (x := x) (a := 16 ^ D) (b := 16)]
    ring

theorem readHex_hex {D x : Nat} (h : x < 16 ^ D) : readHex (hex D x) = x := by
  rw [readHex, foldl_hex, Nat.mod_eq_of_lt h]
  simp

/-- A value of width `n` fits `ceil(n / 4)` hexadecimal digits (R99). -/
theorem lt_pow_hexDigits {n x : Nat} (h : x ≤ 2 ^ n - 1) : x < 16 ^ hexDigits n := by
  have h2 : 2 ^ n ≤ 16 ^ hexDigits n := by
    rw [show (16 : Nat) = 2 ^ 4 from rfl, ← pow_mul]
    exact Nat.pow_le_pow_right (by norm_num) (by unfold hexDigits; omega)
  have : 0 < 2 ^ n := by positivity
  omega

end Sys2Proof.Machine
end

