-- ==== Sys2Proof/Laws/Format.lean ====
section
/-! SUPPORT. The texts of the format operations: their lengths (R106), their characters (R104, R107). -/

namespace Sys2Proof.Machine

variable {n : Nat}

/-- The character of one bit in the binary field. -/
def bitChar (b : Bool) : Char := if b then '1' else '0'

theorem length_binFrom (a : BitVec n) (i : Nat) : (binFrom a i).length = i + (i - 1) / 4 := by
  induction i with
  | zero => rfl
  | succ i ih =>
    by_cases h : i ≠ 0 ∧ i % 4 = 0
    · simp only [binFrom, if_pos h, List.length_cons, ih]; omega
    · simp only [binFrom, if_neg h, List.length_cons, ih]; omega

theorem length_binText (h : 1 ≤ n) (a : BitVec n) : (binText a).length = lbin n := by
  rw [binText, length_binFrom, lbin, hexDigits]; omega

/-- The binary field read from the right: every fifth character is the separating space (R104). -/
theorem reverse_binFrom (a : BitVec n) (i j : Nat) (h : j < i + (i - 1) / 4) :
    (binFrom a i).reverse[j]? =
      some (if j % 5 = 4 then ' ' else bitChar (a.getLsbD (4 * (j / 5) + j % 5))) := by
  induction i with
  | zero => simp at h
  | succ i ih =>
    by_cases hs : i ≠ 0 ∧ i % 4 = 0
    · simp only [binFrom, if_pos hs, List.reverse_cons, List.append_assoc]
      rcases Nat.lt_or_ge j (i + (i - 1) / 4) with hj | hj
      · rw [List.getElem?_append_left (by simpa [length_binFrom] using hj)]
        exact ih hj
      · rw [List.getElem?_append_right (by simpa [length_binFrom] using hj)]
        have hl : (binFrom a i).reverse.length = i + (i - 1) / 4 := by simp [length_binFrom]
        rw [hl]
        rcases Nat.eq_or_lt_of_le hj with hj | hj
        · rw [← hj]
          have : (i + (i - 1) / 4) % 5 = 4 := by omega
          simp [this]
        · have h1 : j = i + (i - 1) / 4 + 1 := by omega
          have h2 : j % 5 ≠ 4 := by omega
          have h3 : 4 * (j / 5) + j % 5 = i := by omega
          rw [if_neg h2, h3, h1]
          simp [bitChar]
    · simp only [binFrom, if_neg hs, List.reverse_cons]
      rcases Nat.lt_or_ge j (i + (i - 1) / 4) with hj | hj
      · rw [List.getElem?_append_left (by simpa [length_binFrom] using hj)]
        exact ih hj
      · rw [List.getElem?_append_right (by simpa [length_binFrom] using hj)]
        have h1 : j = i + (i - 1) / 4 := by omega
        have h2 : j % 5 ≠ 4 := by omega
        have h3 : 4 * (j / 5) + j % 5 = i := by omega
        rw [if_neg h2, h3]
        simp [length_binFrom, h1, bitChar]

theorem binFrom_chars (a : BitVec n) (i : Nat) : ∀ c ∈ binFrom a i, c = '0' ∨ c = '1' ∨ c = ' ' := by
  induction i with
  | zero => simp [binFrom]
  | succ i ih =>
    intro c hc
    rw [binFrom, List.mem_cons] at hc
    rcases hc with rfl | hc
    · cases a.getLsbD i <;> simp
    · split at hc
      · rcases List.mem_cons.1 hc with rfl | hc
        · simp
        · exact ih c hc
      · exact ih c hc

theorem mag_le (a : BitVec n) (h : sign a = true) : 2 ^ n - uval a ≤ 2 ^ (n - 1) := by
  have h1 := (sign_iff_half_le a).1 h
  cases n with
  | zero => simp at *
  | succ n => simp only [Nat.add_sub_cancel] at *; rw [pow_succ] at *; omega

theorem uval_le_of_sign_false (a : BitVec n) (h : sign a = false) : uval a ≤ 2 ^ (n - 1) := by
  have h1 : ¬ 2 ^ (n - 1) ≤ uval a := fun h2 => by simp [(sign_iff_half_le a).2 h2] at h
  omega

theorem length_udecText_le (a : BitVec n) : (udecText a).length ≤ digits (2 ^ n - 1) :=
  digits_mono (by have := uval_lt a; omega)

theorem length_sdecText_le (a : BitVec n) : (sdecText a).length ≤ 1 + digits (2 ^ (n - 1)) := by
  unfold sdecText
  split
  · next h =>
    rw [List.length_cons, Nat.add_comm]
    exact Nat.add_le_add_left (digits_mono (mag_le a h)) 1
  · next h =>
    exact (digits_mono (uval_le_of_sign_false a (by simpa using h))).trans (Nat.le_add_left _ _)

theorem length_uhexText (a : BitVec n) : (uhexText a).length = 2 + hexDigits n := by
  simp [uhexText]; omega

theorem length_shexText (a : BitVec n) :
    (shexText a).length = (if sign a then 3 else 2) + hexDigits n := by
  unfold shexText
  split
  · simp; omega
  · exact length_uhexText a

theorem length_fmtText (a : BitVec n) : (fmtText a).length =
    5 + digits n + 3 + (binText a).length + 7 + (udecText a).length + 1 + (sdecText a).length + 7
      + (uhexText a).length + 1 + (shexText a).length + 2 := by
  simp [fmtText, digits]; omega

theorem length_fmtText_le (h : 1 ≤ n) (a : BitVec n) : (fmtText a).length ≤ lfmt n := by
  rw [length_fmtText, length_binText h, length_uhexText, length_shexText, lfmt]
  have h1 := length_udecText_le a
  have h2 := length_sdecText_le a
  split <;> omega

theorem length_texts_le (h : 1 ≤ n) (a : BitVec n) :
    (binText a).length ≤ lfmt n ∧ (udecText a).length ≤ lfmt n ∧ (sdecText a).length ≤ lfmt n ∧
    (uhexText a).length ≤ lfmt n ∧ (shexText a).length ≤ lfmt n := by
  have h0 := length_fmtText_le h a
  rw [length_fmtText] at h0
  omega

theorem dec_mem_alphabet (x : Nat) : ∀ c ∈ dec x, c ∈ alphabet := fun c hc => by
  obtain ⟨d, hd, rfl⟩ := dec_digit_range x c hc
  exact digitChar_mem_alphabet d (by omega)

theorem hex_mem_alphabet (D x : Nat) : ∀ c ∈ hex D x, c ∈ alphabet := fun c hc => by
  obtain ⟨d, hd, rfl⟩ := hex_digit_range D x c hc
  exact digitChar_mem_alphabet d hd

theorem binText_mem_alphabet (a : BitVec n) : ∀ c ∈ binText a, c ∈ alphabet := fun c hc => by
  rcases binFrom_chars a n c hc with rfl | rfl | rfl <;> decide

theorem udecText_mem_alphabet (a : BitVec n) : ∀ c ∈ udecText a, c ∈ alphabet := dec_mem_alphabet _

theorem sdecText_mem_alphabet (a : BitVec n) : ∀ c ∈ sdecText a, c ∈ alphabet := by
  unfold sdecText
  split
  · exact List.forall_mem_cons.2 ⟨by decide, dec_mem_alphabet _⟩
  · exact dec_mem_alphabet _

theorem uhexText_mem_alphabet (a : BitVec n) : ∀ c ∈ uhexText a, c ∈ alphabet :=
  List.forall_mem_cons.2 ⟨by decide, List.forall_mem_cons.2 ⟨by decide, hex_mem_alphabet _ _⟩⟩

theorem shexText_mem_alphabet (a : BitVec n) : ∀ c ∈ shexText a, c ∈ alphabet := by
  unfold shexText
  split
  · exact List.forall_mem_cons.2 ⟨by decide, List.forall_mem_cons.2 ⟨by decide,
      List.forall_mem_cons.2 ⟨by decide, hex_mem_alphabet _ _⟩⟩⟩
  · exact uhexText_mem_alphabet a

theorem fmtText_mem_alphabet (a : BitVec n) : ∀ c ∈ fmtText a, c ∈ alphabet := by
  intro c hc
  simp only [fmtText, List.mem_append] at hc
  rcases hc with (((((((((((hc | hc) | hc) | hc) | hc) | hc) | hc) | hc) | hc) | hc) | hc) | hc) | hc
  · fin_cases hc <;> decide
  · exact dec_mem_alphabet _ c hc
  · fin_cases hc <;> decide
  · exact binText_mem_alphabet a c hc
  · fin_cases hc <;> decide
  · exact udecText_mem_alphabet a c hc
  · fin_cases hc ; decide
  · exact sdecText_mem_alphabet a c hc
  · fin_cases hc <;> decide
  · exact uhexText_mem_alphabet a c hc
  · fin_cases hc ; decide
  · exact shexText_mem_alphabet a c hc
  · fin_cases hc <;> decide

end Sys2Proof.Machine
end

