-- ==== Sys2Proof/Laws/State.lean ====
section
/-! SUPPORT. One lemma per field of State per update (true by rfl), and of the outputs each update drives. -/

namespace Sys2Proof.Machine

variable (s : State) (p : Config.Params)

/-! The default outputs. -/
@[simp] theorem idle_y : (Outputs.idle p).y = 0 := rfl
@[simp] theorem idle_yw : (Outputs.idle p).yw = 0 := rfl
@[simp] theorem idle_uovf : (Outputs.idle p).uovf = false := rfl
@[simp] theorem idle_sovf : (Outputs.idle p).sovf = false := rfl
@[simp] theorem idle_err : (Outputs.idle p).err = 0 := rfl
@[simp] theorem idle_einfo : (Outputs.idle p).einfo = 0 := rfl
@[simp] theorem idle_txt : (Outputs.idle p).txt = Vector.replicate p.tmax 0 := rfl
@[simp] theorem idle_tlen : (Outputs.idle p).tlen = 0 := rfl

section ofValue
variable (y : BitVec p.n) (w : Nat) (u v : Bool)
@[simp] theorem ofValue_y : (Outputs.ofValue y w u v : Outputs p).y = y := rfl
@[simp] theorem ofValue_yw : (Outputs.ofValue y w u v : Outputs p).yw = BitVec.ofNat p.ww w := rfl
@[simp] theorem ofValue_uovf : (Outputs.ofValue y w u v : Outputs p).uovf = u := rfl
@[simp] theorem ofValue_sovf : (Outputs.ofValue y w u v : Outputs p).sovf = v := rfl
@[simp] theorem ofValue_err : (Outputs.ofValue y w u v : Outputs p).err = 0 := rfl
@[simp] theorem ofValue_einfo : (Outputs.ofValue y w u v : Outputs p).einfo = 0 := rfl
@[simp] theorem ofValue_txt : (Outputs.ofValue y w u v : Outputs p).txt = Vector.replicate p.tmax 0 := rfl
@[simp] theorem ofValue_tlen : (Outputs.ofValue y w u v : Outputs p).tlen = 0 := rfl
end ofValue

section ofText
variable (t : Text)
@[simp] theorem ofText_y : (Outputs.ofText p t).y = 0 := rfl
@[simp] theorem ofText_yw : (Outputs.ofText p t).yw = 0 := rfl
@[simp] theorem ofText_uovf : (Outputs.ofText p t).uovf = false := rfl
@[simp] theorem ofText_sovf : (Outputs.ofText p t).sovf = false := rfl
@[simp] theorem ofText_err : (Outputs.ofText p t).err = 0 := rfl
@[simp] theorem ofText_einfo : (Outputs.ofText p t).einfo = 0 := rfl
@[simp] theorem ofText_txt : (Outputs.ofText p t).txt = textLanes p.tmax t := rfl
@[simp] theorem ofText_tlen : (Outputs.ofText p t).tlen = BitVec.ofNat p.tlw t.length := rfl
end ofText

section ofError
variable (e : ErrorKind)
@[simp] theorem ofError_y : (Outputs.ofError p e).y = 0 := rfl
@[simp] theorem ofError_yw : (Outputs.ofError p e).yw = 0 := rfl
@[simp] theorem ofError_uovf : (Outputs.ofError p e).uovf = false := rfl
@[simp] theorem ofError_sovf : (Outputs.ofError p e).sovf = false := rfl
@[simp] theorem ofError_err : (Outputs.ofError p e).err = e.code := rfl
@[simp] theorem ofError_einfo : (Outputs.ofError p e).einfo = e.info := rfl
@[simp] theorem ofError_txt : (Outputs.ofError p e).txt = Vector.replicate p.tmax 0 := rfl
@[simp] theorem ofError_tlen : (Outputs.ofError p e).tlen = 0 := rfl
end ofError

section driveValue
variable (y : BitVec s.params.n) (w : Nat) (u v : Bool)
@[simp] theorem driveValue_params : (driveValue s y w u v).params = s.params := rfl
@[simp] theorem driveValue_inp : (driveValue s y w u v).inp = s.inp := rfl
@[simp] theorem driveValue_moment : (driveValue s y w u v).moment = s.moment := rfl
@[simp] theorem driveValue_out : (driveValue s y w u v).out = Outputs.ofValue y w u v := rfl
end driveValue

section driveText
variable (t : Text)
@[simp] theorem driveText_params : (driveText s t).params = s.params := rfl
@[simp] theorem driveText_inp : (driveText s t).inp = s.inp := rfl
@[simp] theorem driveText_moment : (driveText s t).moment = s.moment := rfl
@[simp] theorem driveText_out : (driveText s t).out = Outputs.ofText s.params t := rfl
end driveText

section raise
variable (e : ErrorKind)
@[simp] theorem raise_params : (raise s e).params = s.params := rfl
@[simp] theorem raise_inp : (raise s e).inp = s.inp := rfl
@[simp] theorem raise_moment : (raise s e).moment = s.moment := rfl
@[simp] theorem raise_out : (raise s e).out = Outputs.ofError s.params e := rfl
end raise

section present
variable (inp : Inputs s.params)
@[simp] theorem present_params : (s.present inp).params = s.params := rfl
@[simp] theorem present_inp : (s.present inp).inp = inp := rfl
@[simp] theorem present_out : (s.present inp).out = Outputs.unsettled s.params s.moment := rfl
@[simp] theorem present_moment : (s.present inp).moment = s.moment + 1 := rfl
end present

section withFetchWord
variable (nbits w : Nat)
@[simp] theorem withFetchWord_params : (s.withFetchWord nbits w).params = s.params := rfl
@[simp] theorem withFetchWord_op : (s.withFetchWord nbits w).inp.op = opOfWord nbits w := rfl
@[simp] theorem withFetchWord_a : (s.withFetchWord nbits w).inp.a = s.inp.a := rfl
@[simp] theorem withFetchWord_b : (s.withFetchWord nbits w).inp.b = s.inp.b := rfl
@[simp] theorem withFetchWord_k : (s.withFetchWord nbits w).inp.k = s.inp.k := rfl
@[simp] theorem withFetchWord_hi : (s.withFetchWord nbits w).inp.hi = s.inp.hi := rfl
@[simp] theorem withFetchWord_lo : (s.withFetchWord nbits w).inp.lo = s.inp.lo := rfl
@[simp] theorem withFetchWord_out : (s.withFetchWord nbits w).out = Outputs.unsettled s.params s.moment := rfl
@[simp] theorem withFetchWord_moment : (s.withFetchWord nbits w).moment = s.moment + 1 := rfl
end withFetchWord

end Sys2Proof.Machine
end

