-- ==== Sys2Proof/Laws/Ops.lean ====
section
/-! SUPPORT. Once for each shared operation, everything it leaves on the ports; and the parameters' check as
plain inequalities. -/

namespace Sys2Proof.Machine

theorem wellFormed_iff (p : Config.Params) : p.wellFormed = true ↔
    1 ≤ p.n ∧ 1 ≤ p.kw ∧ 1 ≤ p.iw ∧ p.n ≤ 2 ^ p.iw ∧ p.n < 2 ^ p.ww ∧ lfmt p.n ≤ p.tmax ∧ p.tmax < 2 ^ p.tlw := by
  simp [Config.Params.wellFormed, and_assoc]

theorem getElem_textLanes (tmax : Nat) (t : Text) (j : Nat) (h : j < tmax) :
    (textLanes tmax t)[j] = if h' : j < t.length then BitVec.ofNat 8 t[j].toNat else 0 := by
  by_cases h' : j < t.length <;> simp [textLanes, h', charCode]

theorem hasText_ofText {p : Config.Params} {t : Text} (h : t.length < 2 ^ p.tlw) : (Outputs.ofText p t).HasText t :=
  ⟨by simp [Nat.mod_eq_of_lt h], fun j hj => getElem_textLanes p.tmax t j hj⟩

/-- What driving a text leaves on the ports: the text and nothing else. -/
theorem onlyText_ofText {p : Config.Params} {t : Text} (h : t.length < 2 ^ p.tlw) :
    (Outputs.ofText p t).OnlyText t :=
  ⟨hasText_ofText h, ⟨rfl, rfl⟩, ⟨rfl, rfl⟩, ⟨rfl, rfl⟩⟩

/-- A text of the port determines the text read off its lanes. -/
theorem toList_textLanes (tmax : Nat) (t : Text) :
    (textLanes tmax t).toList.take t.length = (t.take tmax).map charCode := by
  apply List.ext_getElem
  · simp; omega
  · intro j h1 h2
    have h3 : j < t.length := by simp at h2; omega
    simp [textLanes, h3]

theorem hasText_nil_ofValue {p : Config.Params} (y : BitVec p.n) (w : Nat) (u v : Bool) :
    (Outputs.ofValue y w u v : Outputs p).HasText [] :=
  ⟨by simp, fun j hj => by simp⟩

/-- What driving a value of the instance's width leaves beside the value and the flags. -/
theorem onlyValue_ofValue {p : Config.Params} (h : p.wellFormed = true) (y : BitVec p.n) (u v : Bool) :
    (Outputs.ofValue y p.n u v : Outputs p).OnlyValue :=
  ⟨by simp [Nat.mod_eq_of_lt ((wellFormed_iff _).1 h).2.2.2.2.1], hasText_nil_ofValue .., ⟨rfl, rfl⟩⟩

/-- What an error leaves beside its code and detail: nothing (R118). -/
theorem only_error_ofError (p : Config.Params) (e : ErrorKind) :
    (Outputs.ofError p e).NoValue ∧ (Outputs.ofError p e).NoFlags ∧ (Outputs.ofError p e).HasText [] :=
  ⟨⟨rfl, rfl⟩, ⟨rfl, rfl⟩, by simp, fun j hj => by simp⟩

/-- The detail of `InvalidRange`, bit by bit (R116). -/
theorem info_invalidRange (x y z : Bool) :
    (ErrorKind.invalidRange x y z).info.getLsbD 0 = x ∧ (ErrorKind.invalidRange x y z).info.getLsbD 1 = y := by
  revert x y z; decide

/-- Reading a value off the ports gives its low `w` bits, its width and its flags (R95). -/
theorem reading_ofValue {p : Config.Params} (y : BitVec p.n) {w : Nat} (u v : Bool) (h0 : 1 ≤ w) (h : w < 2 ^ p.ww) :
    (Outputs.ofValue y w u v : Outputs p).reading = .value ⟨w, h0, y.setWidth w⟩ u v := by
  have hw : (BitVec.ofNat p.ww w).toNat = w := by simp [Nat.mod_eq_of_lt h]
  have h1 : BitVec.ofNat p.ww w ≠ 0 := fun hc => by simp [hc] at hw; omega
  have cast : ∀ (x : BitVec p.ww) (hx : 1 ≤ x.toNat), x.toNat = w →
      Reading.value ⟨x.toNat, hx, y.setWidth x.toNat⟩ u v = Reading.value ⟨w, h0, y.setWidth w⟩ u v := by
    rintro x hx rfl; rfl
  exact (if_neg (by simp)).trans ((dif_pos h1).trans (cast _ _ hw))

/-- Reading a text off the ports gives the codes of its characters (R107). -/
theorem reading_ofText {p : Config.Params} {t : Text} (h : t.length ≤ p.tmax) (h' : p.tmax < 2 ^ p.tlw) :
    (Outputs.ofText p t).reading = .text (t.map charCode) := by
  have hl : t.length % 2 ^ p.tlw = t.length := Nat.mod_eq_of_lt (by omega)
  simp [Outputs.reading, hl, toList_textLanes, List.take_of_length_le h]

/-- Reading an error off the ports gives its code and detail (R118). -/
theorem reading_ofError (p : Config.Params) (e : ErrorKind) :
    (Outputs.ofError p e).reading = .error e.code e.info := by
  cases e <;> simp [Outputs.reading, ErrorKind.code]

theorem step_of_decode {s : State} {i : Instr} (h : s.params.wellFormed = true) (hd : decode s.inp.op = .ok i) :
    step s = exec i s := by simp [step, h, hd]

theorem step_of_reserved {s : State} {e : DecodeError} (h : s.params.wellFormed = true)
    (hd : decode s.inp.op = .error e) : step s = .next (raise s .illegalOp) := by simp [step, h, hd, illegalOp]

theorem step_of_illegal {s : State} (h : s.params.wellFormed = false) : step s = .refused .illegalParameters := by
  simp [step, h]

/-- Everything a step can do. -/
theorem step_cases (s : State) :
    (s.params.wellFormed = false ∧ step s = .refused .illegalParameters) ∨
    (s.params.wellFormed = true ∧ ∃ i, decode s.inp.op = .ok i ∧ step s = exec i s) ∨
    (s.params.wellFormed = true ∧ ∃ e, decode s.inp.op = .error e ∧ step s = .next (raise s .illegalOp)) := by
  cases h : s.params.wellFormed
  · exact .inl ⟨rfl, step_of_illegal h⟩
  · cases hd : decode s.inp.op with
    | ok i => exact .inr (.inl ⟨rfl, i, rfl, step_of_decode h hd⟩)
    | error e => exact .inr (.inr ⟨rfl, e, rfl, step_of_reserved h hd⟩)

end Sys2Proof.Machine
end

