-- ==== Sys2Proof/Laws/PerInstr.lean ====
section
/-! SUPPORT. The family RoundTrip: each operation's `OP` word, made of its class and function fields (R46), decodes
to that operation (R48). -/

namespace Sys2Proof.Laws.RoundTrip

/-- Decoding the encoding of an operation gives it back, and its class stands in `OP[4:3]`. -/
def Statement (i : Instr) : Prop :=
  decode (encode i) = .ok i ∧ (encode i).extractLsb 4 3 = i.unitClass ∧ (encode i).extractLsb 2 0 = i.func

theorem add : Statement .add := ⟨rfl, rfl, rfl⟩
theorem sub : Statement .sub := ⟨rfl, rfl, rfl⟩
theorem mul : Statement .mul := ⟨rfl, rfl, rfl⟩
theorem and : Statement .and := ⟨rfl, rfl, rfl⟩
theorem or : Statement .or := ⟨rfl, rfl, rfl⟩
theorem xor : Statement .xor := ⟨rfl, rfl, rfl⟩
theorem not : Statement .not := ⟨rfl, rfl, rfl⟩
theorem shl : Statement .shl := ⟨rfl, rfl, rfl⟩
theorem shr : Statement .shr := ⟨rfl, rfl, rfl⟩
theorem sar : Statement .sar := ⟨rfl, rfl, rfl⟩
theorem slice : Statement .slice := ⟨rfl, rfl, rfl⟩
theorem bin : Statement .bin := ⟨rfl, rfl, rfl⟩
theorem udec : Statement .udec := ⟨rfl, rfl, rfl⟩
theorem sdec : Statement .sdec := ⟨rfl, rfl, rfl⟩
theorem uhex : Statement .uhex := ⟨rfl, rfl, rfl⟩
theorem shex : Statement .shex := ⟨rfl, rfl, rfl⟩
theorem fmt : Statement .fmt := ⟨rfl, rfl, rfl⟩

end Sys2Proof.Laws.RoundTrip
end

