-- ==== Sys2Proof/Laws/Wiring.lean ====
section
/-! SUPPORT. Once for each wiring function, everything it can answer; and the value-level pairing and the constructors as
plain bit vectors. -/

namespace Sys2Proof.Machine

variable {n w x : Nat} {v : Value}

theorem operandWires_of_width (h : v.width = n) : operandWires n v = .ok (v.bits.cast h) := dif_pos h

theorem operandWires_of_ne (h : v.width ≠ n) : operandWires n v = .error (.widthMismatch n v.width) := dif_neg h

theorem numberWires_of_lt (h : x < 2 ^ w) : numberWires w x = .ok (BitVec.ofNat w x) := if_pos h

theorem numberWires_of_not_lt (h : ¬ x < 2 ^ w) : numberWires w x = .error (.numberTooWide w x) := if_neg h

/-- On two values of one width a two-operand operation is its function of their bits. -/
@[simp] theorem withSameWidth_mk {α : Type} (pos pos' : 1 ≤ n) (a b : BitVec n)
    (f : (n : Nat) → 1 ≤ n → BitVec n → BitVec n → α) :
    withSameWidth ⟨n, pos, a⟩ ⟨n, pos', b⟩ f = .ok (f n pos a b) := dif_pos rfl

/-- On values of different widths it is a `WidthMismatch` (R75). -/
theorem withSameWidth_of_ne {α : Type} {a b : Value} {f : (n : Nat) → 1 ≤ n → BitVec n → BitVec n → α}
    (h : a.width ≠ b.width) : withSameWidth a b f = .error (.widthMismatch a.width b.width) := dif_neg h.symm

@[simp] theorem zeros_eq (pos : 1 ≤ n) : zeros n pos = 0 := eq_of_bits fun i hi => by simp [zeros]

@[simp] theorem ones_eq (pos : 1 ≤ n) : ones n pos = BitVec.allOnes n := eq_of_bits fun i hi => by simp [ones, hi]

/-- The inputs of a transaction that fits: nothing is cut. -/
theorem inputs_of_fits {p : Config.Params} {x : Transaction} (h : x.Fits p) : ∃ inp : Inputs p,
    x.inputs p = .ok inp ∧ inp.op = x.op ∧ inp.a.toNat = x.a.bits.toNat ∧ inp.b.toNat = x.b.bits.toNat ∧
      inp.k.toNat = x.k ∧ inp.hi.toNat = x.hi ∧ inp.lo.toNat = x.lo := by
  obtain ⟨ha, hb, hk, hh, hl⟩ := h
  refine ⟨⟨x.op, x.a.bits.cast ha, x.b.bits.cast hb, BitVec.ofNat _ x.k, BitVec.ofNat _ x.hi, BitVec.ofNat _ x.lo⟩,
    ?_, rfl, rfl, rfl, ?_, ?_, ?_⟩
  · simp only [Transaction.inputs, operandWires_of_width ha, operandWires_of_width hb, numberWires_of_lt hk,
      numberWires_of_lt hh, numberWires_of_lt hl]
    rfl
  all_goals simpa using Nat.mod_eq_of_lt ‹_›

/-- A transaction that does not fit has no inputs. -/
theorem inputs_of_not_fits {p : Config.Params} {x : Transaction} (h : ¬ x.Fits p) : ∃ f, x.inputs p = .error f := by
  unfold Transaction.inputs
  by_cases ha : x.a.width = p.n
  · rw [operandWires_of_width ha]
    by_cases hb : x.b.width = p.n
    · rw [operandWires_of_width hb]
      by_cases hk : x.k < 2 ^ p.kw
      · rw [numberWires_of_lt hk]
        by_cases hh : x.hi < 2 ^ p.iw
        · rw [numberWires_of_lt hh]
          by_cases hl : x.lo < 2 ^ p.iw
          · exact absurd ⟨ha, hb, hk, hh, hl⟩ h
          · rw [numberWires_of_not_lt hl]; exact ⟨_, rfl⟩
        · rw [numberWires_of_not_lt hh]; exact ⟨_, rfl⟩
      · rw [numberWires_of_not_lt hk]; exact ⟨_, rfl⟩
    · rw [operandWires_of_ne hb]; exact ⟨_, rfl⟩
  · rw [operandWires_of_ne ha]; exact ⟨_, rfl⟩

theorem drive_of_inputs {s : State} {x : Transaction} {inp : Inputs s.params} (h : s.params.wellFormed = true)
    (hx : x.inputs s.params = .ok inp) : s.drive x = .next (s.present inp) := by
  simp [State.drive, h, hx]

theorem drive_of_error {s : State} {x : Transaction} {f : Fault} (h : s.params.wellFormed = true)
    (hx : x.inputs s.params = .error f) : s.drive x = .fault f := by
  simp [State.drive, h, hx]

theorem connectTo_of_width {s : State} {put : BitVec s.params.n → Inputs s.params} (h : s.params.wellFormed = true)
    (hv : v.width = s.params.n) : s.connectTo (.held v) put = .next (s.present (put (v.bits.cast hv))) := by
  simp [State.connectTo, connect, h, operandWires_of_width hv]

theorem connectTo_of_ne {s : State} {put : BitVec s.params.n → Inputs s.params} (h : s.params.wellFormed = true)
    (hv : v.width ≠ s.params.n) : s.connectTo (.held v) put = .fault (.widthMismatch s.params.n v.width) := by
  simp [State.connectTo, connect, h, operandWires_of_ne hv]

theorem connectTo_ownOutput {s : State} {put : BitVec s.params.n → Inputs s.params} (h : s.params.wellFormed = true) :
    s.connectTo .ownOutput put = .refused .combinationalLoop := by
  simp [State.connectTo, connect, h]

theorem connectTo_of_illegal {s : State} {src : Source} {put : BitVec s.params.n → Inputs s.params}
    (h : s.params.wellFormed = false) : s.connectTo src put = .refused .illegalParameters := by
  simp [State.connectTo, h]

theorem loadTo_of_ok {s : State} {t : Text} {put : BitVec s.params.n → Inputs s.params} {y : BitVec s.params.n}
    (h : s.params.wellFormed = true) (ht : parse s.params.n (Config.Params.width_pos h) t = .ok y) :
    s.loadTo t put = .next (s.present (put y)) := by
  rw [State.loadTo, dif_pos h, ht]

theorem loadTo_of_error {s : State} {t : Text} {put : BitVec s.params.n → Inputs s.params} {e : ErrorKind}
    (h : s.params.wellFormed = true) (ht : parse s.params.n (Config.Params.width_pos h) t = .error e) :
    s.loadTo t put = .fault e := by
  rw [State.loadTo, dif_pos h, ht]

end Sys2Proof.Machine
end

