-- ==== Sys2Proof/Tests/Slice0.lean ====
section
/-! SUPPORT. Tests. Expected results are the spec's own: its opcode table (R48), its worked examples and the vectors
of spec/95_test_vectors.md, never the model's answers. Then one witness for the hypotheses of the statements. -/

namespace Sys2Proof.Tests

open Sys2Proof Sys2Proof.Machine

/-! ## Helpers -/

/-- An instance of width `n`, `n <= 16`. -/
def width (n : Nat) : Config.Params := { n := n, kw := 8, iw := 8, ww := 5, tmax := 71, tlw := 7 }

/-- A transaction on an instance of width `n`. -/
def drives (n op a b k hi lo : Nat) : State :=
  { params := width n
    inp := { op := BitVec.ofNat 5 op, a := BitVec.ofNat _ a, b := BitVec.ofNat _ b, k := BitVec.ofNat _ k,
             hi := BitVec.ofNat _ hi, lo := BitVec.ofNat _ lo }
    out := Outputs.idle _
    moment := 0 }

/-- A value the host holds, of a width written in the test. -/
def value (n x : Nat) (pos : 1 ≤ n := by decide) : Value := { width := n, pos := pos, bits := BitVec.ofNat n x }

/-- After one step: `Y`, `YW`, `UOVF`, `SOVF`, `ERR`, `EINFO`, and no text. -/
def gives (s : State) (y yw : Nat) (uovf sovf : Bool) (err einfo : Nat) : Bool :=
  match step s with
  | .next t => t.out.y.toNat == y && t.out.yw.toNat == yw && t.out.uovf == uovf && t.out.sovf == sovf
      && t.out.err.toNat == err && t.out.einfo.toNat == einfo && t.out.tlen.toNat == 0
  | .fault _ => false
  | .refused _ => false

/-- After one step: the text on the lanes, no value, no error. -/
def prints (s : State) (t : Text) : Bool :=
  match step s with
  | .next u => u.out.tlen.toNat == t.length && u.out.txt.toList.map BitVec.toNat ==
      t.map Char.toNat ++ List.replicate (u.params.tmax - t.length) 0
      && u.out.y.toNat == 0 && u.out.yw.toNat == 0 && u.out.err.toNat == 0
  | .fault _ => false
  | .refused _ => false

/-! ## Well-formedness: an ill-formed instance for each check of R7, R20, R47, and the slice range of R17 -/

theorem test_width_16_is_legal : (width 16).wellFormed = true := by decide
theorem test_width_1_is_legal : (width 1).wellFormed = true := by decide
theorem test_width_0_is_refused : (width 0).wellFormed = false := by decide
theorem test_kw_0_is_refused : { width 16 with kw := 0 }.wellFormed = false := by decide
theorem test_iw_0_is_refused : { width 1 with iw := 0 }.wellFormed = false := by decide
theorem test_iw_3_for_16_is_refused : { width 16 with iw := 3 }.wellFormed = false := by decide
theorem test_ww_4_for_16_is_refused : { width 16 with ww := 4 }.wellFormed = false := by decide
theorem test_70_lanes_for_16_is_refused : { width 16 with tmax := 70 }.wellFormed = false := by decide
theorem test_tlen_6_bits_is_refused : { width 16 with tlw := 6 }.wellFormed = false := by decide
/-- `LFMT(16) = 71` and `LFMT(10) = 59` (R106). -/
theorem test_lfmt : lfmt 16 = 71 ∧ lfmt 10 = 59 := by decide
theorem test_slice_range_legal : sliceRangeWellFormed 16 15 0 = true := by decide
theorem test_slice_range_negative_lo : sliceRangeWellFormed 16 3 (-1) = false := by decide
theorem test_slice_range_hi_below_lo : sliceRangeWellFormed 16 7 8 = false := by decide
theorem test_slice_range_hi_is_width : sliceRangeWellFormed 16 16 0 = false := by decide
theorem test_step_refuses_width_0 : step (drives 0 0 0 0 0 0 0) = .refused .illegalParameters := by rfl

/-! ## Decoding: every row of R48, its five bits written out; the reserved words of R49 -/

theorem test_decode_add : decode 0b00000#5 = .ok .add := by decide
theorem test_decode_sub : decode 0b00001#5 = .ok .sub := by decide
theorem test_decode_mul : decode 0b00010#5 = .ok .mul := by decide
theorem test_decode_and : decode 0b01000#5 = .ok .and := by decide
theorem test_decode_or : decode 0b01001#5 = .ok .or := by decide
theorem test_decode_xor : decode 0b01010#5 = .ok .xor := by decide
theorem test_decode_not : decode 0b01011#5 = .ok .not := by decide
theorem test_decode_shl : decode 0b10000#5 = .ok .shl := by decide
theorem test_decode_shr : decode 0b10001#5 = .ok .shr := by decide
theorem test_decode_sar : decode 0b10010#5 = .ok .sar := by decide
theorem test_decode_slice : decode 0b10011#5 = .ok .slice := by decide
theorem test_decode_bin : decode 0b11000#5 = .ok .bin := by decide
theorem test_decode_udec : decode 0b11001#5 = .ok .udec := by decide
theorem test_decode_sdec : decode 0b11010#5 = .ok .sdec := by decide
theorem test_decode_uhex : decode 0b11011#5 = .ok .uhex := by decide
theorem test_decode_shex : decode 0b11100#5 = .ok .shex := by decide
theorem test_decode_fmt : decode 0b11101#5 = .ok .fmt := by decide
theorem test_reserved_words : [0b00011#5, 0b00100#5, 0b00101#5, 0b00110#5, 0b00111#5, 0b01100#5, 0b01101#5, 0b01110#5,
    0b01111#5, 0b10100#5, 0b10101#5, 0b10110#5, 0b10111#5, 0b11110#5, 0b11111#5].all
      (fun op => decode op == .error (.reserved op)) = true := by decide
theorem test_table_word_in_a_byte : decodeTableWord 8 0x13 = some .slice := by decide
theorem test_fetch_word_is_run_next : step (State.reset.withFetchWord 8 0x18) =
    exec .bin (State.reset.withFetchWord 8 0x18) := by rfl
/-- Driving `OP` changes an input, so the outputs may hold anything until the next step (R131). -/
theorem test_fetch_word_unsettles : (State.reset.withFetchWord 8 0x18).out.y = Config.unsettled .y 16 0 := by rfl

/-! ## One step (spec/95_test_vectors.md 2.1 to 2.6, 2.8) -/

theorem test_add_scenario_A : gives (drives 3 0b00000 0b101 0b110 0 0 0) 0b011 3 true true 0 0 = true := by decide
theorem test_add_signed_only : gives (drives 4 0b00000 0b0111 0b0001 0 0 0) 0b1000 4 false true 0 0 = true := by decide
theorem test_sub_minus_minus_one :
    gives (drives 4 0b00001 0b0111 0b1111 0 0 0) 0b1000 4 true true 0 0 = true := by decide
theorem test_sub_zero : gives (drives 4 0b00001 0b1010 0b0000 0 0 0) 0b1010 4 false false 0 0 = true := by decide
theorem test_mul_unsigned_only : gives (drives 4 0b00010 0b1111 0b1111 0 0 0) 0b0001 4 true false 0 0 = true := by decide
theorem test_mul_width_1 : gives (drives 1 0b00010 1 1 0 0 0) 1 1 false true 0 0 = true := by decide
theorem test_and : gives (drives 8 0b01000 0b10110001 0b01101011 0 0 0) 0b00100001 8 false false 0 0 = true := by decide
theorem test_or : gives (drives 8 0b01001 0b10110001 0b01101011 0 0 0) 0b11111011 8 false false 0 0 = true := by decide
theorem test_xor : gives (drives 8 0b01010 0b10110001 0b01101011 0 0 0) 0b11011010 8 false false 0 0 = true := by decide
theorem test_not : gives (drives 8 0b01011 0b10110001 0 0 0 0) 0b01001110 8 false false 0 0 = true := by decide
theorem test_shl_3 : gives (drives 8 0b10000 0b10110001 0 3 0 0) 0b10001000 8 false false 0 0 = true := by decide
theorem test_shl_8 : gives (drives 8 0b10000 0b10110001 0 8 0 0) 0 8 false false 0 0 = true := by decide
theorem test_shr_3 : gives (drives 8 0b10001 0b10110001 0 3 0 0) 0b00010110 8 false false 0 0 = true := by decide
theorem test_shr_255 : gives (drives 8 0b10001 0b10110001 0 255 0 0) 0 8 false false 0 0 = true := by decide
theorem test_sar_3 : gives (drives 8 0b10010 0b10110001 0 3 0 0) 0b11110110 8 false false 0 0 = true := by decide
theorem test_sar_8 : gives (drives 8 0b10010 0b10110001 0 8 0 0) 0b11111111 8 false false 0 0 = true := by decide
theorem test_slice_scenario_B :
    gives (drives 16 0b10011 0b1011000101101011 0 0 15 8) 0b10110001 8 false false 0 0 = true := by decide
theorem test_slice_both_bounds : gives (drives 16 0b10011 0b1011000101101011 0 0 20 25) 0 0 false false 4 0b11 = true := by
  decide
theorem test_bin : prints (drives 6 0b11000 0b101101 0 0 0 0) "10 1101".toList = true := by decide
theorem test_udec : prints (drives 16 0b11001 0b1011000101101011 0 0 0 0) "45419".toList = true := by decide
theorem test_udec_zero : prints (drives 16 0b11001 0 0 0 0 0) "0".toList = true := by decide
theorem test_sdec : prints (drives 16 0b11010 0b1011000101101011 0 0 0 0) "-20117".toList = true := by decide
theorem test_sdec_most_negative : prints (drives 4 0b11010 0b1000 0 0 0 0) "-8".toList = true := by decide
theorem test_uhex : prints (drives 12 0b11011 0b000011110000 0 0 0 0) "0x0f0".toList = true := by decide
theorem test_shex : prints (drives 16 0b11100 0b1011000101101011 0 0 0 0)
    ([0x2D, 0x30, 0x78, 0x34, 0x65, 0x39, 0x35].map Char.ofNat) = true := by decide
theorem test_shex_padded : prints (drives 16 0b11100 0b1111111111110110 0 0 0 0) "-0x000a".toList = true := by decide
theorem test_fmt_scenario_C : prints (drives 16 0b11101 0b1011000101101011 0 0 0 0)
    ("Bits<16>".toList ++ [Char.ofNat 0x7B] ++ " 1011 0001 0110 1011 | dec 45419/-20117 | hex 0xb16b/-0x4e95 ".toList
      ++ [Char.ofNat 0x7D]) = true := by decide
theorem test_fmt_width_1 : prints (drives 1 0b11101 1 0 0 0 0)
    ("Bits<1>".toList ++ [Char.ofNat 0x7B] ++ " 1 | dec 1/-1 | hex 0x1/-0x1 ".toList ++ [Char.ofNat 0x7D]) = true := by
  decide
theorem test_reserved_op : gives (drives 16 0b00011 0b1011000101101011 0 0 0 0) 0 0 false false 6 0 = true := by decide
/-- Program 6: after an error the next transaction is as ever. -/
theorem test_error_leaves_nothing : (match step (drives 16 0b10011 0b1011000101101011 0 0 16 0) with
    | .next t => gives { t with inp := { t.inp with hi := BitVec.ofNat _ 8, lo := BitVec.ofNat _ 8 } } 1 1 false false 0 0
    | .fault _ => false
    | .refused _ => false) = true := by decide

/-! ## Host-side functions (2.7; R22 to R24, R75) -/

theorem test_parse_separators : parse 16 (by decide) "_1011 0001__0110 1011 ".toList = .ok 45419#16 := by decide
theorem test_parse_invalid_digit : parse 4 (by decide) "10_12".toList = .error (.invalidDigit '2' 3) := by decide
theorem test_parse_digit_before_length : parse 4 (by decide) "10121".toList = .error (.invalidDigit '2' 3) := by decide
theorem test_parse_length : parse 4 (by decide) "101".toList = .error (.lengthMismatch 4 3) := by decide
theorem test_parse_empty : parse 4 (by decide) "_ _".toList = .error (.lengthMismatch 4 0) := by decide
theorem test_from_bits_order : fromBits 3 (by decide) [true, true, false] = .ok 0b011#3 := by decide
theorem test_add_widths_differ : valueOp .add (value 8 1) (value 16 1) 0 0 0 = .error (.widthMismatch 8 16) := by decide
theorem test_slice_negative_index : sliceValue (value 16 0) 3 (-1) = .error (.invalidRange false false true) := by decide
theorem test_slice_is_no_16_bit_operand :
    State.reset.connectA (.held (value 8 0b10110001)) = .fault (.widthMismatch 16 8) := by rfl

/-- R128: the nearest thing to a load, on either port. -/
theorem test_load_b : (match State.reset.loadB "1011 0001 0110 1011".toList with
    | .next t => gives t 45419 16 false false 0 0
    | .fault _ => false
    | .refused _ => false) = true := by decide
theorem test_drive_cuts_nothing :
    State.reset.drive { op := 0, a := value 16 1, b := value 17 0x10000, k := 0, hi := 0, lo := 0 } =
      .fault (.widthMismatch 16 17) := by rfl
theorem test_drive_count_of_9_bits :
    State.reset.drive { op := 0, a := value 16 1, b := value 16 1, k := 256, hi := 0, lo := 0 } =
      .fault (.numberTooWide 8 256) := by rfl
theorem test_no_wiring_at_width_0 : (drives 0 0 0 0 0 0 0).connectA (.held (value 8 1)) = .refused .illegalParameters ∧
    (drives 0 0 0 0 0 0 0).loadA [] = .refused .illegalParameters := ⟨rfl, rfl⟩

/-! ## Witnesses: the hypotheses of each statement can be met, each clause at a boundary -/

/-- For every statement whose one hypothesis is a legal instance: `AddGivesSumAndBothFlags`, `AddIsTheCarryChain`,
`LookaheadAdderEqualsAdd`, `SubGivesDifferenceAndBothFlags`, `SubIsTheAdderOnTheComplement`, `MulGivesProductAndBothFlags`,
`BitwiseOperationsArePositionwise`, `NotComplementsBothReadings`, `ShiftsScaleByPowersOfTwo`, `UdecDrivesTheUnsignedNumeral`,
`UhexDrivesThePaddedNumeral`, `FmtAssemblesTheFiveFields`, `TextLengthsFitThePort`, `ParsingTheBinaryFieldGivesTheOperand`,
`DoubleDabbleEqualsUdec`, `OnlySliceAndReservedOpsRaiseErrors`, `StepIsTotalAndChangesOnlyOutputs`,
`OutputsDependOnThePresentInputsOnly`, `PortsRefineTheValueOperations`. -/
theorem witness_legal_instance : State.reset.params.wellFormed = true := by decide

/-- `AddSignedReading`: no overflow, overflow of a positive and of a negative sum. -/
theorem witness_add_signed : (drives 4 0 0b0111 0b0001 0 0 0).params.wellFormed = true ∧
    addSovf 0b0011#4 0b0001#4 (addBits 0b0011#4 0b0001#4) = false ∧
    addSovf 0b0111#4 0b0001#4 (addBits 0b0111#4 0b0001#4) = true ∧ 0 < (0b0111#4).toInt + (0b0001#4).toInt ∧
    addSovf 0b1000#4 0b1000#4 (addBits 0b1000#4 0b1000#4) = true ∧ (0b1000#4).toInt + (0b1000#4).toInt < 0 := by decide

/-- `SubSignedReadingAndComparison` and `MulSignedReadingAndShiftAdd`: operands without signed overflow. -/
theorem witness_sub_mul_signed : (drives 4 1 0b0011 0b0101 0 0 0).params.wellFormed = true ∧
    subSovf 0b0011#4 0b0101#4 (subBits 0b0011#4 0b0101#4) = false ∧
    mulSovf 0b1111#4 0b1111#4 (mulBits 0b1111#4 0b1111#4) = false := by decide

/-- `FlagCombinationsByWidth`, `ShiftsCompose`, `ConstructorsBuildTheirBits`: the least width, and sequences of the right
and of a wrong length. -/
theorem witness_least_width : 1 ≤ 1 ∧ [true].length = 1 ∧ ([] : List Bool).length ≠ 1 := by decide

/-- `FlagCombinationsByWidth`: the pairs that tell widths 1, 2 and 3 of MUL apart. -/
theorem witness_mul_flags : (mulUovf 1#1 1#1, mulSovf 1#1 1#1 (mulBits 1#1 1#1)) = (false, true) ∧
    (mulUovf 3#2 3#2, mulSovf 3#2 3#2 (mulBits 3#2 3#2)) = (true, false) ∧
    (mulUovf 2#3 3#3, mulSovf 2#3 3#3 (mulBits 2#3 3#3)) = (false, true) := by decide

/-- `FlagsAreNoFunctionOfTheResult`: each of its operations, MUL at the least width it is said for. -/
theorem witness_flag_operations : (width 2).wellFormed = true ∧
    ∀ i ∈ [Instr.add, .sub, .mul], i = .add ∨ i = .sub ∨ (i = .mul ∧ 2 ≤ (width 2).n) := by decide

/-- `ShiftsMoveBitsByTheCount`: counts 0, `N-1` and `N`, at which the fill starts. -/
theorem witness_shift_counts : (drives 8 0b10000 0b10110001 0 7 0 0).params.wellFormed = true ∧
    (drives 8 0b10000 0b10110001 0 0 0 0).inp.k.toNat = 0 ∧ (drives 8 0b10000 0b10110001 0 7 0 0).inp.k.toNat = 7 ∧
    (drives 8 0b10000 0b10110001 0 8 0 0).inp.k.toNat = 8 := by decide

/-- `ShiftsSaturateAtTheWidth`: the least such count; both signs. -/
theorem witness_saturating_count : (drives 8 0b10010 0b10110001 0 8 0 0).params.wellFormed = true ∧
    (drives 8 0b10010 0b10110001 0 8 0 0).params.n ≤ (drives 8 0b10010 0b10110001 0 8 0 0).inp.k.toNat ∧
    sign (0b10110001#8) = true ∧ sign (0b01101011#8) = false := by decide

/-- `BarrelShifterEqualsTheShifts`: width 1, which has no stage, is an instance too. -/
theorem witness_barrel_width_1 : (drives 1 0b10000 1 0 1 0 0).params.wellFormed = true := by decide

/-- `SliceReturnsTheInclusiveRange`, `SliceIsAQuotientAndRemainder`: the whole operand, and one bit. -/
theorem witness_legal_ranges :
    (drives 16 0b10011 0b1011000101101011 0 0 15 0).params.wellFormed = true ∧
    (drives 16 0b10011 0b1011000101101011 0 0 15 0).inp.lo.toNat ≤ (drives 16 0b10011 0b1011000101101011 0 0 15 0).inp.hi.toNat ∧
    (drives 16 0b10011 0b1011000101101011 0 0 15 0).inp.hi.toNat < 16 ∧
    (drives 16 0b10011 0b1011000101101011 0 0 0 0).inp.lo.toNat ≤ (drives 16 0b10011 0b1011000101101011 0 0 0 0).inp.hi.toNat := by
  decide

/-- `IllegalSliceRaisesInvalidRange`: `hi = lo - 1`, `hi = N`, both bounds; over integers `0`, `N-1`, `N` and `-1`. -/
theorem witness_illegal_ranges :
    (drives 16 0b10011 0 0 0 7 8).params.wellFormed = true ∧
    (drives 16 0b10011 0 0 0 7 8).inp.hi.toNat < (drives 16 0b10011 0 0 0 7 8).inp.lo.toNat ∧
    (drives 16 0b10011 0 0 0 16 0).params.n ≤ (drives 16 0b10011 0 0 0 16 0).inp.hi.toNat ∧
    sliceValue (value 16 1) 15 0 = .ok (value 16 1) ∧
    sliceValue (value 16 1) 16 0 = .error (.invalidRange false true false) ∧
    sliceValue (value 16 1) 0 (-1) = .error (.invalidRange false false true) := by decide

/-- `SingleBitSliceIsGet`: the last index inside and the first outside. -/
theorem witness_single_bit : (drives 16 0b10011 0 0 0 15 15).params.wellFormed = true ∧
    (drives 16 0b10011 0 0 0 15 15).inp.hi = (drives 16 0b10011 0 0 0 15 15).inp.lo ∧
    (drives 16 0b10011 0 0 0 15 15).inp.lo.toNat < 16 ∧
    (drives 16 0b10011 0 0 0 16 16).inp.hi = (drives 16 0b10011 0 0 0 16 16).inp.lo ∧
    16 ≤ (drives 16 0b10011 0 0 0 16 16).inp.lo.toNat := by decide

/-- `SdecDrivesTheSignedNumeral`, `ShexDrivesTheSignedPaddedNumeral`: 0, -1 and the most negative value. -/
theorem witness_signs : (drives 4 0b11010 0b0000 0 0 0 0).params.wellFormed = true ∧ 0 ≤ (0b0000#4).toInt ∧
    (0b1111#4).toInt = -1 ∧ (0b1000#4).toInt = -8 := by decide

/-- `BinGroupsBitsInFours`: width 5 has the separator at position 4 from the right. -/
theorem witness_bin_separator : (drives 5 0b11000 0b10000 0 0 0 0).params.wellFormed = true ∧
    (binText 0b10000#5).length = 6 ∧ (binText 0b10000#5).reverse[4]? = some ' ' := by decide

/-- `BinaryFieldOfParsedTextIsTheText`: a text of exactly `N` digits. -/
theorem witness_digit_text : (drives 3 0b11000 0 0 0 0 0).params.wellFormed = true ∧
    ['1', '0', '1'].length = (drives 3 0b11000 0 0 0 0 0).params.n ∧ ∀ c ∈ ['1', '0', '1'], c = '0' ∨ c = '1' :=
  ⟨by decide, rfl, by simp⟩

/-- `StepRunsTheDecodedOperation`, `DecodeAndEncodeAreInverse`: an `OP` that decodes, as a port value and as a word. -/
theorem witness_decodes : (drives 16 0b11101 0 0 0 0 0).params.wellFormed = true ∧
    decode (drives 16 0b11101 0 0 0 0 0).inp.op = .ok .fmt ∧ decodeTableWord 8 0x1D = some .fmt ∧
    decode 0b11110#5 = .error (.reserved 0b11110#5) := by decide

/-- `ReservedOpRaisesIllegalOp`: the neighbours 2 and 3, 30 and 29. -/
theorem witness_reserved : (drives 16 3 0 0 0 0 0).params.wellFormed = true ∧
    (drives 16 3 0 0 0 0 0).inp.op.toNat ∈ [3, 4, 5, 6, 7, 12, 13, 14, 15, 20, 21, 22, 23, 30, 31] ∧
    (drives 16 30 0 0 0 0 0).inp.op.toNat ∈ [3, 4, 5, 6, 7, 12, 13, 14, 15, 20, 21, 22, 23, 30, 31] ∧
    (drives 16 2 0 0 0 0 0).inp.op.toNat ∉ [3, 4, 5, 6, 7, 12, 13, 14, 15, 20, 21, 22, 23, 30, 31] ∧
    (drives 16 29 0 0 0 0 0).inp.op.toNat ∉ [3, 4, 5, 6, 7, 12, 13, 14, 15, 20, 21, 22, 23, 30, 31] := by decide

/-- `UnusedPortsFollowTheTable`: inputs that differ on every port NOT ignores, and the clause for no error. -/
theorem witness_unused_ports : (drives 4 0b01011 0b1100 0 0 0 0).params.wellFormed = true ∧
    decode (drives 4 0b01011 0b1100 0 0 0 0).inp.op = .ok .not ∧
    (drives 4 0b01011 0b1100 1 2 3 4).inp.op = (drives 4 0b01011 0b1100 0 0 0 0).inp.op ∧
    (drives 4 0b01011 0b1100 0 0 0 0).inp.a = (drives 4 0b01011 0b1100 1 2 3 4).inp.a ∧
    gives (drives 4 0b01011 0b1100 1 2 3 4) 0b0011 4 false false 0 0 = true :=
  ⟨by decide, by decide, rfl, rfl, by decide⟩

/-- `UnusedPortsFollowTheTable`: the agreement on the used ports of those two inputs. -/
theorem witness_unused_ports_agree : ∀ port ∈ usedPorts .not,
    (drives 4 0b01011 0b1100 0 0 0 0).inp.AgreeOn (drives 4 0b01011 0b1100 1 2 3 4).inp port := by
  intro port h
  simp only [usedPorts, List.mem_singleton] at h
  subst h
  rfl

/-- `OutputsAreLegalAfterEveryStep`, `RepeatingATransactionRepeatsItsOutputs`, `WidthsMustMatch`: a step that answers a
next state, one with an error. -/
theorem witness_next : step State.reset = .next State.reset ∧
    step (drives 16 0b00011 0 0 0 0 0) = .next (raise (drives 16 0b00011 0 0 0 0 0) .illegalOp) := ⟨rfl, rfl⟩

/-- `StepIsTotalAndChangesOnlyOutputs`: the instances it refuses are those of the tests above, `N = 0` among them. -/
theorem witness_refused : ¬ (1 ≤ (width 0).n) := by decide

/-- `ParserAnswersExactlyOneWay`: each of the three answers. -/
theorem witness_parser_answers : parse 4 (by decide) "1011".toList = .ok 11#4 ∧
    parse 4 (by decide) "1012".toList = .error (.invalidDigit '2' 3) ∧ parse 4 (by decide) "10110".toList = .error (.lengthMismatch 4 5) := by decide

/-- `OnlySpaceAndUnderscoreSeparate`: a tab is neither a digit nor a separator. -/
theorem witness_tab : '\t' ∈ "1\t011".toList ∧ '\t' ≠ '0' ∧ '\t' ≠ '1' ∧ '\t' ≠ ' ' ∧ '\t' ≠ '_' ∧
    parse 4 (by decide) "1\t011".toList = .error (.invalidDigit '\t' 1) := by decide

/-- `AccessorsReadAndReplaceOneBit`: the indices 0 and `N-1` inside, -1 and `N` outside. -/
theorem witness_indices : getBit (value 4 0b1001) 0 = .ok true ∧ getBit (value 4 0b1001) 3 = .ok true ∧
    setBit (value 4 0b1001) 1 true = .ok (value 4 0b1011) ∧ getBit (value 4 0b1001) (-1) = .error (.indexOutOfBounds (-1)) ∧
    getBit (value 4 0b1001) 4 = .error (.indexOutOfBounds 4) := by decide

/-- `WidthsMustMatch`, `AliasesNameTheOperations`: operands of one width and of two, an operation of the list. -/
theorem witness_widths : Instr.xor ∈ [Instr.add, .sub, .mul, .and, .or, .xor] ∧
    valueOp .add (value 3 5) (value 3 6) 0 0 0 = .ok (.value (value 3 3) true true) ∧
    valueOp .add (value 3 5) (value 4 6) 0 0 0 = .error (.widthMismatch 3 4) ∧
    sliceValue (value 3 5) 2 1 = .ok (value 2 2) := by decide

/-- `TheLastTransactionDecides`, `DrivingNeverCutsAnOperand`: operands at the ends of their ports' ranges, the first
number that does not fit, and an operand of the next width. -/
theorem witness_transactions :
    ({ op := 0, a := value 16 65535, b := value 16 0, k := 255, hi := 255, lo := 0 } : Transaction).Fits (width 16) ∧
    ¬ ({ op := 0, a := value 16 65535, b := value 16 0, k := 256, hi := 255, lo := 0 } : Transaction).Fits (width 16) ∧
    (value 17 0).width ≠ (width 16).n := by decide

/-- `LoadingATextPresentsItsValue`: a text that parses at the width of a legal instance, and one that does not. -/
theorem witness_load : (drives 4 0 0 0 0 0 0).params.wellFormed = true ∧ parse 4 (by decide) "1_011".toList = .ok 11#4 ∧
    parse 4 (by decide) "".toList = .error (.lengthMismatch 4 0) := by decide

/-- `WiringNeverChangesAWidth`: an instance that is none. -/
theorem witness_no_instance : (drives 0 0 0 0 0 0 0).params.wellFormed = false := by decide

/-- `WiringNeverChangesAWidth`: a value that fits port `A`. -/
theorem witness_right_width : (value 16 0).width = State.reset.params.n := by decide

/-- `WiringNeverChangesAWidth`: a value that does not fit port `A`. -/
theorem witness_wrong_width : (value 8 0).width ≠ State.reset.params.n := by decide

end Sys2Proof.Tests
end

/-! PROOF. R50 (O38): the input ports an operation ignores do not matter, and the output ports it does not produce carry
0. Two facts carry it: inputs that agree on the used ports give one and the same output valuation
(`exec_agreeOn_usedPorts`), and an operation other than SLICE drives either a text and nothing else
(`exec_of_mem_textOps`) or a value of the full width `N` and no text (`exec_of_notMem_slice_textOps`). -/

namespace Sys2Proof.Machine

section
variable {s : State} {i : Instr}

/-- The operations that drive a text (R48, class `11`). -/
abbrev textOps : List Instr := [.bin, .udec, .sdec, .uhex, .shex, .fmt]

/-- Every operation uses port `A`. -/
theorem a_mem_usedPorts (i : Instr) : InPort.a ∈ usedPorts i := by cases i <;> decide

/-- Inputs that agree on the ports an operation uses give the same outputs (R50). -/
theorem exec_agreeOn_usedPorts {inp : Inputs s.params} (h : ∀ port ∈ usedPorts i, s.inp.AgreeOn inp port) :
    ∃ o : Outputs s.params, exec i s = .next { s with out := o } ∧
      exec i { s with inp := inp } = .next { s with inp := inp, out := o } := by
  obtain ⟨p, ⟨op, a, b, k, hi, lo⟩, out, moment⟩ := s
  obtain ⟨op', a', b', k', hi', lo'⟩ := inp
  obtain rfl : a = a' := h .a (a_mem_usedPorts i)
  cases i
  case add | sub | mul | and | or | xor =>
    obtain rfl : b = b' := h .b (by decide)
    exact ⟨_, rfl, rfl⟩
  case shl | shr | sar =>
    obtain rfl : k = k' := h .k (by decide)
    exact ⟨_, rfl, rfl⟩
  case slice =>
    obtain rfl : hi = hi' := h .hi (by decide)
    obtain rfl : lo = lo' := h .lo (by decide)
    by_cases hr : hi.toNat < lo.toNat ∨ p.n ≤ hi.toNat
    · exact ⟨_, exec_slice_illegal _ hr, exec_slice_illegal _ hr⟩
    · exact ⟨_, exec_slice_legal _ hr, exec_slice_legal _ hr⟩
  case not | bin | udec | sdec | uhex | shex | fmt => exact ⟨_, rfl, rfl⟩

/-- A format operation drives a text that fits the port, and nothing else. -/
theorem exec_of_mem_textOps (hwf : s.params.wellFormed = true) (hi : i ∈ textOps) :
    ∃ t : Text, t.length < 2 ^ s.params.tlw ∧ exec i s = .next { s with out := Outputs.ofText s.params t } := by
  obtain ⟨hn, -, -, -, -, hlanes, htlen⟩ := (wellFormed_iff _).1 hwf
  obtain ⟨hbin, hudec, hsdec, huhex, hshex⟩ := length_texts_le hn s.inp.a
  have fits {t : Text} (h : t.length ≤ lfmt s.params.n) : t.length < 2 ^ s.params.tlw := by omega
  cases i
  case bin => exact ⟨_, fits hbin, exec_bin s⟩
  case udec => exact ⟨_, fits hudec, exec_udec s⟩
  case sdec => exact ⟨_, fits hsdec, exec_sdec s⟩
  case uhex => exact ⟨_, fits huhex, exec_uhex s⟩
  case shex => exact ⟨_, fits hshex, exec_shex s⟩
  case fmt => exact ⟨_, fits (length_fmtText_le hn s.inp.a), exec_fmt s⟩
  all_goals exact absurd hi (by decide)

/-- An operation other than SLICE and the format operations drives a value of width `N`, with flags 0 unless
it is ADD, SUB or MUL. -/
theorem exec_of_notMem_slice_textOps (hi : i ∉ Instr.slice :: textOps) :
    ∃ (y : BitVec s.params.n) (u v : Bool), exec i s = .next { s with out := Outputs.ofValue y s.params.n u v } ∧
      (i ∉ [Instr.add, .sub, .mul] → u = false ∧ v = false) := by
  cases i
  case add | sub | mul => exact ⟨_, _, _, rfl, fun h => absurd (by decide) h⟩
  case and | or | xor | not | shl | shr | sar => exact ⟨_, _, _, rfl, fun _ => ⟨rfl, rfl⟩⟩
  all_goals exact absurd (by decide) hi

/-- The outputs of a next state that differs in the outputs alone are determined. -/
theorem out_eq_of_next_eq {o o' : Outputs s.params}
    (h : (.next { s with out := o } : Host.Outcome State Fault Refusal) = .next { s with out := o' }) : o = o' := by
  simpa using h

/-- SLICE raises no error on a legal range only, and then drives the slice and its width (R93, R95). -/
theorem exec_slice_of_err_eq_zero {o : Outputs s.params} (ho : exec .slice s = .next { s with out := o })
    (herr : o.err = 0) : s.inp.hi.toNat < s.params.n ∧
      o = Outputs.ofValue ((sliceBits s.inp.a s.inp.hi.toNat s.inp.lo.toNat).setWidth s.params.n)
        (s.inp.hi.toNat - s.inp.lo.toNat + 1) false false := by
  by_cases hr : s.inp.hi.toNat < s.inp.lo.toNat ∨ s.params.n ≤ s.inp.hi.toNat
  · obtain rfl := out_eq_of_next_eq (ho.symm.trans (exec_slice_illegal s hr))
    exact absurd herr (by simp [ErrorKind.code])
  · exact ⟨by omega, out_eq_of_next_eq (ho.symm.trans (exec_slice_legal s hr))⟩

/-- A slice has no bit at or above its width, on whatever port it is put. -/
theorem getLsbD_setWidth_sliceBits_of_le {n w : Nat} (a : BitVec n) {hi lo j : Nat} (h : hi - lo + 1 ≤ j) :
    ((sliceBits a hi lo).setWidth w).getLsbD j = false := by
  rw [BitVec.getLsbD_setWidth, BitVec.getLsbD_of_ge _ j h, Bool.and_false]

/-- The lanes at and above `TLEN` are 0 when the port carries a text (R107). -/
theorem Outputs.HasText.lane_eq_zero {p : Config.Params} {o : Outputs p} {t : Text} (h : o.HasText t) {j : Nat}
    (hj : j < p.tmax) (hle : o.tlen.toNat ≤ j) : o.txt[j] = 0 := by
  obtain ⟨hlen, hlanes⟩ := h
  rw [hlanes j hj, dif_neg (by omega)]

end

/-- Settles O38: the two transactions answer one output valuation, and with no error raised that valuation is a slice, a
text and nothing else, or a value of the full width. -/
theorem unusedPortsFollowTheTable : Obligations.UnusedPortsFollowTheTable := by
  intro s i inp hwf hd hop hagree
  obtain ⟨o, ho, ho'⟩ := exec_agreeOn_usedPorts hagree
  have hd' : decode inp.op = .ok i := hop ▸ hd
  refine ⟨o, (step_of_decode hwf hd).trans ho,
    (step_of_decode (s := { s with inp := inp }) hwf hd').trans ho', fun herr => ?_⟩
  obtain ⟨-, -, -, -, hww, -, -⟩ := (wellFormed_iff _).1 hwf
  by_cases htext : i ∈ textOps
  · obtain ⟨t, hfits, ht⟩ := exec_of_mem_textOps hwf htext
    obtain rfl := out_eq_of_next_eq (ho.symm.trans ht)
    obtain ⟨hhas, hvalue, hflags, -, heinfo⟩ := onlyText_ofText hfits
    exact ⟨heinfo, fun _ => hflags, fun _ => ⟨hvalue, fun j hj => hhas.lane_eq_zero hj⟩, fun h => absurd htext h,
      fun h => absurd (List.mem_cons_of_mem _ htext) h, fun h => absurd (h ▸ htext) (by decide)⟩
  by_cases hslice : i = .slice
  · subst hslice
    obtain ⟨hrange, rfl⟩ := exec_slice_of_err_eq_zero ho herr
    have hw : (BitVec.ofNat s.params.ww (s.inp.hi.toNat - s.inp.lo.toNat + 1)).toNat =
        s.inp.hi.toNat - s.inp.lo.toNat + 1 := by
      rw [BitVec.toNat_ofNat, Nat.mod_eq_of_lt (by omega)]
    exact ⟨rfl, fun _ => ⟨rfl, rfl⟩, fun h => absurd h htext, fun _ => hasText_nil_ofValue ..,
      fun h => absurd (List.mem_cons_self ..) h,
      fun _ => ⟨hw, fun j hj => getLsbD_setWidth_sliceBits_of_le _ (hw ▸ hj)⟩⟩
  · obtain ⟨y, u, v, hy, hflags⟩ := exec_of_notMem_slice_textOps (s := s) fun h =>
      (List.mem_cons.1 h).elim hslice htext
    obtain rfl := out_eq_of_next_eq (ho.symm.trans hy)
    obtain ⟨hw, hnone, -, heinfo⟩ := onlyValue_ofValue hwf y u v
    exact ⟨heinfo, hflags, fun h => absurd h htext, fun _ => hnone, fun _ => hw, fun h => absurd h hslice⟩

end Sys2Proof.Machine

/-! PROOF. The parser (O30, O45, O46). `parse` looks at the significant characters alone (`parse_congr_significant`) and
answers in one of three ways, which `parse_cases` lists once; the place of the leftmost character that is no digit is
`firstBadDigit_zero_eq_some_iff`. The binary field without its spaces is the bits from high to low
(`filter_binFrom`), and those are the characters the parser read. -/

namespace Sys2Proof.Machine

section
variable {n : Nat} {pos : 1 ≤ n} {t u : Text} {c : Char}

@[simp] theorem isSeparator_iff : isSeparator c = true ↔ c = ' ' ∨ c = '_' := by simp [isSeparator]

@[simp] theorem isBinaryDigit_iff : isBinaryDigit c = true ↔ c = '0' ∨ c = '1' := by simp [isBinaryDigit]

/-! ### The significant characters -/

@[simp] theorem mem_significant : c ∈ significant t ↔ c ∈ t ∧ c ≠ ' ' ∧ c ≠ '_' := by
  simp [significant, ← Bool.not_eq_true]

theorem significant_append (t u : Text) : significant (t ++ u) = significant t ++ significant u :=
  List.filter_append ..

theorem significant_cons_of_isSeparator (h : isSeparator c = true) : significant (c :: u) = significant u :=
  List.filter_cons_of_neg (by simp [h])

/-- A text of digits is its own significant part. -/
theorem significant_of_digits (h : ∀ c ∈ t, c = '0' ∨ c = '1') : significant t = t :=
  List.filter_eq_self.2 fun c hc => by rcases h c hc with rfl | rfl <;> rfl

/-! ### The leftmost significant character that is no digit -/

theorem firstBadDigit_cons_digit (h : c = '0' ∨ c = '1') (p : Nat) :
    firstBadDigit (c :: t) p = firstBadDigit t (p + 1) := if_pos (isBinaryDigit_iff.2 h)

theorem firstBadDigit_cons_not_digit (h : ¬ (c = '0' ∨ c = '1')) (p : Nat) :
    firstBadDigit (c :: t) p = some (c, p) := if_neg (isBinaryDigit_iff.not.2 h)

theorem firstBadDigit_eq_none_iff (t : Text) (p : Nat) :
    firstBadDigit t p = none ↔ ∀ c ∈ t, c = '0' ∨ c = '1' := by
  induction t generalizing p with
  | nil => simp [firstBadDigit]
  | cons c t ih =>
    by_cases h : c = '0' ∨ c = '1'
    · rw [firstBadDigit_cons_digit h, ih, List.forall_mem_cons, and_iff_right h]
    · simp [firstBadDigit_cons_not_digit h, h]

/-- Counting from one place further on moves the place found by one. -/
theorem firstBadDigit_succ (t : Text) (p : Nat) :
    firstBadDigit t (p + 1) = (firstBadDigit t p).map (Prod.map id (· + 1)) := by
  induction t generalizing p with
  | nil => rfl
  | cons c t ih =>
    by_cases h : c = '0' ∨ c = '1'
    · rw [firstBadDigit_cons_digit h, firstBadDigit_cons_digit h, ih]
    · rw [firstBadDigit_cons_not_digit h, firstBadDigit_cons_not_digit h]; rfl

theorem firstBadDigit_zero_eq_some_iff (t : Text) (c : Char) (q : Nat) : firstBadDigit t 0 = some (c, q) ↔
    t[q]? = some c ∧ c ≠ '0' ∧ c ≠ '1' ∧ ∀ r < q, ∀ d, t[r]? = some d → d = '0' ∨ d = '1' := by
  induction t generalizing q with
  | nil => simp [firstBadDigit]
  | cons b t ih =>
    by_cases h : b = '0' ∨ b = '1'
    · rw [firstBadDigit_cons_digit h, firstBadDigit_succ]
      cases q with
      | zero =>
        exact iff_of_false (by simp [Prod.map]) fun ⟨hb, h0, h1, _⟩ => (Option.some.inj hb ▸ h).elim h0 h1
      | succ q =>
        have tail : (firstBadDigit t 0).map (Prod.map id (· + 1)) = some (c, q + 1) ↔
            firstBadDigit t 0 = some (c, q) := by simp [Prod.map]
        rw [tail, ih, Nat.forall_lt_succ_left]
        simp [h]
    · rw [firstBadDigit_cons_not_digit h]
      cases q with
      | zero =>
        obtain ⟨h0, h1⟩ := not_or.1 h
        exact ⟨by rintro ⟨⟩; exact ⟨rfl, h0, h1, by simp⟩, fun hb => by simpa using hb.1⟩
      | succ q =>
        exact iff_of_false (by simp) fun ⟨_, _, _, hdigits⟩ => h (hdigits 0 q.succ_pos b rfl)

/-! ### The answers of the parser -/

/-- Texts with the same significant characters parse alike (R54). -/
theorem parse_congr_significant (h : significant t = significant u) : parse n pos t = parse n pos u := by
  rw [parse, parse, h]

theorem parse_of_firstBadDigit {q : Nat} (h : firstBadDigit (significant t) 0 = some (c, q)) :
    parse n pos t = .error (.invalidDigit c q) := by rw [parse, h]

theorem parse_of_digits (h : ∀ c ∈ significant t, c = '0' ∨ c = '1') (hlen : (significant t).length = n) :
    parse n pos t = .ok (ofBits n fun i => (significant t)[n - 1 - i]? == some '1') := by
  rw [parse, (firstBadDigit_eq_none_iff _ _).2 h]; exact if_pos hlen

theorem parse_of_length_ne (h : ∀ c ∈ significant t, c = '0' ∨ c = '1') (hlen : (significant t).length ≠ n) :
    parse n pos t = .error (.lengthMismatch n (significant t).length) := by
  rw [parse, (firstBadDigit_eq_none_iff _ _).2 h]; exact if_neg hlen

/-- Everything the parser can answer, and when (R60, R62). -/
theorem parse_cases (n : Nat) (pos : 1 ≤ n) (t : Text) :
    (∃ c q, firstBadDigit (significant t) 0 = some (c, q) ∧ parse n pos t = .error (.invalidDigit c q)) ∨
    ((∀ c ∈ significant t, c = '0' ∨ c = '1') ∧ (significant t).length = n ∧
      parse n pos t = .ok (ofBits n fun i => (significant t)[n - 1 - i]? == some '1')) ∨
    ((∀ c ∈ significant t, c = '0' ∨ c = '1') ∧ (significant t).length ≠ n ∧
      parse n pos t = .error (.lengthMismatch n (significant t).length)) := by
  cases h : firstBadDigit (significant t) 0 with
  | some bad => exact .inl ⟨bad.1, bad.2, rfl, parse_of_firstBadDigit h⟩
  | none =>
    have hdigits := (firstBadDigit_eq_none_iff _ _).1 h
    by_cases hlen : (significant t).length = n
    · exact .inr (.inl ⟨hdigits, hlen, parse_of_digits hdigits hlen⟩)
    · exact .inr (.inr ⟨hdigits, hlen, parse_of_length_ne hdigits hlen⟩)

theorem parse_eq_ok_iff {v : BitVec n} : parse n pos t = .ok v ↔
    (∀ c ∈ significant t, c = '0' ∨ c = '1') ∧ (significant t).length = n ∧
      ∀ i < n, (v.getLsbD i = true ↔ (significant t)[n - 1 - i]? = some '1') := by
  constructor
  · intro h
    obtain ⟨c, q, -, hp⟩ | ⟨hdigits, hlen, hp⟩ | ⟨-, -, hp⟩ := parse_cases n pos t
    · cases hp.symm.trans h
    · cases hp.symm.trans h
      exact ⟨hdigits, hlen, fun i hi => by simp [hi]⟩
    · cases hp.symm.trans h
  · rintro ⟨hdigits, hlen, hbits⟩
    rw [parse_of_digits hdigits hlen]
    congr 1
    exact eq_of_bits fun i hi => Bool.eq_iff_iff.2 (by rw [hbits i hi, getLsbD_ofBits]; simp [hi])

theorem parse_eq_invalidDigit_iff {q : Nat} : parse n pos t = .error (.invalidDigit c q) ↔
    firstBadDigit (significant t) 0 = some (c, q) := by
  refine ⟨fun h => ?_, parse_of_firstBadDigit⟩
  obtain ⟨c', q', hbad, hp⟩ | ⟨-, -, hp⟩ | ⟨-, -, hp⟩ := parse_cases n pos t
  · cases hp.symm.trans h
    exact hbad
  · cases hp.symm.trans h
  · cases hp.symm.trans h

theorem parse_eq_lengthMismatch_iff {e a : Nat} : parse n pos t = .error (.lengthMismatch e a) ↔
    (∀ c ∈ significant t, c = '0' ∨ c = '1') ∧ (significant t).length ≠ n ∧ e = n ∧ a = (significant t).length := by
  constructor
  · intro h
    obtain ⟨c, q, -, hp⟩ | ⟨-, -, hp⟩ | ⟨hdigits, hlen, hp⟩ := parse_cases n pos t
    · cases hp.symm.trans h
    · cases hp.symm.trans h
    · cases hp.symm.trans h
      exact ⟨hdigits, hlen, rfl, rfl⟩
  · rintro ⟨hdigits, hlen, rfl, rfl⟩
    exact parse_of_length_ne hdigits hlen

/-! ### The binary field without its spaces -/

/-- A filter that drops the space and keeps both digits leaves of the binary field its bits, high to low (R104). -/
theorem filter_binFrom {keep : Char → Bool} (h0 : keep '0' = true) (h1 : keep '1' = true) (hs : keep ' ' = false)
    (a : BitVec n) (i : Nat) :
    (binFrom a i).filter keep = (List.range i).reverse.map fun j => bitChar (a.getLsbD j) := by
  induction i with
  | zero => rfl
  | succ i ih =>
    have hbit : keep (bitChar (a.getLsbD i)) = true := by cases a.getLsbD i <;> assumption
    have hrest : (if i ≠ 0 ∧ i % 4 = 0 then ' ' :: binFrom a i else binFrom a i).filter keep =
        (binFrom a i).filter keep := by
      split
      · exact List.filter_cons_of_neg (by simp [hs])
      · rfl
    rw [binFrom, ← bitChar, List.filter_cons_of_pos hbit, hrest, ih, List.range_succ, List.reverse_append]
    rfl

/-- The bits a text of `N` digits parses to, high to low, are its characters (R56, R63). -/
theorem map_bitChar_of_parse_eq_ok {v : BitVec n} (ht : ∀ c ∈ t, c = '0' ∨ c = '1') (hv : parse n pos t = .ok v) :
    ((List.range n).reverse.map fun j => bitChar (v.getLsbD j)) = t := by
  obtain ⟨-, hlen, hbits⟩ := parse_eq_ok_iff.1 hv
  rw [significant_of_digits ht] at hlen hbits
  refine List.ext_getElem (by simp [hlen]) fun k hk hkt => ?_
  have hbit := hbits (n - 1 - k) (by omega)
  rw [show n - 1 - (n - 1 - k) = k by omega, List.getElem?_eq_getElem hkt, Option.some.injEq] at hbit
  simp only [List.getElem_map, List.getElem_reverse, List.getElem_range, List.length_range, bitChar, hbit]
  rcases ht _ (List.getElem_mem hkt) with hc | hc <;> simp [hc]

/-- The binary field fits the text port when the parameters are well-formed (R106). -/
theorem length_binText_lt {p : Config.Params} (hwf : p.wellFormed = true) (a : BitVec p.n) :
    (binText a).length < 2 ^ p.tlw := by
  obtain ⟨hn, -, -, -, -, hlanes, htlen⟩ := (wellFormed_iff p).1 hwf
  have hbin := (length_texts_le hn a).1
  omega

end

/-- Settles O45: each answer by its own equivalence, and `parse_cases` for the totality. -/
theorem parserAnswersExactlyOneWay : Obligations.ParserAnswersExactlyOneWay := by
  intro n pos t
  refine ⟨fun v => parse_eq_ok_iff,
    fun c q => parse_eq_invalidDigit_iff.trans (firstBadDigit_zero_eq_some_iff _ c q),
    fun e a => parse_eq_lengthMismatch_iff, ?_⟩
  obtain ⟨c, q, -, hp⟩ | ⟨-, -, hp⟩ | ⟨-, -, hp⟩ := parse_cases n pos t
  · exact .inr (.inl ⟨c, q, hp⟩)
  · exact .inl ⟨_, hp⟩
  · exact .inr (.inr ⟨_, _, hp⟩)

/-- Settles O46: a separator is not among the significant characters, and any other character is. -/
theorem onlySpaceAndUnderscoreSeparate : Obligations.OnlySpaceAndUnderscoreSeparate := by
  refine ⟨fun n pos t u c hc => parse_congr_significant ?_, fun n pos t c hc h0 h1 hspace hunder => ?_⟩
  · rw [significant_append, significant_append, significant_cons_of_isSeparator (isSeparator_iff.2 hc)]
  · have hbad : ¬ ∀ d ∈ significant t, d = '0' ∨ d = '1' := fun hdigits =>
      (hdigits c (mem_significant.2 ⟨hc, hspace, hunder⟩)).elim h0 h1
    obtain ⟨d, q, -, hp⟩ | ⟨hdigits, -⟩ | ⟨hdigits, -⟩ := parse_cases n pos t
    · exact ⟨d, q, hp⟩
    · exact absurd hdigits hbad
    · exact absurd hdigits hbad

/-- Settles O30: BIN drives the bits of the parsed value high to low, which are the text's own characters. -/
theorem binaryFieldOfParsedTextIsTheText : Obligations.BinaryFieldOfParsedTextIsTheText := by
  intro s t hwf hlen hdigits
  have hsig := significant_of_digits hdigits
  obtain ⟨v, hv⟩ : ∃ v, parse s.params.n (Config.Params.width_pos hwf) t = .ok v :=
    ⟨_, parse_of_digits (hsig.symm ▸ hdigits) (hsig.symm ▸ hlen)⟩
  exact ⟨v, _, binText v, hv, exec_bin _, onlyText_ofText (length_binText_lt hwf v),
    (filter_binFrom (by decide) (by decide) (by decide) v s.params.n).trans (map_bitChar_of_parse_eq_ok hdigits hv)⟩

end Sys2Proof.Machine

/-! PROOF. ADD, SUB and MUL (O1, O5, O8). Each drives one value of the full width `N` (`exec_add`, `exec_sub`,
`exec_mul`, `onlyValue_ofValue`), and each flag has its equivalence among the laws of the bits. What is left is said of
the product: its low bits are those of `Y` (`getLsbD_mulBits`), and it fits `2N` bits, so that it reaches `2^N` exactly
when one of its bits `N` to `2N-1` is 1 (`mulUovf_iff_exists_testBit`). -/

namespace Sys2Proof.Machine

section
variable {n : Nat}

/-- A number of at most `m` bits reaches `2^n` exactly when one of its bits from `n` on is 1. -/
theorem two_pow_le_iff_exists_testBit {x m : Nat} (hx : x < 2 ^ m) :
    2 ^ n ≤ x ↔ ∃ i, n ≤ i ∧ i < m ∧ x.testBit i = true := by
  constructor
  · intro h
    obtain ⟨i, hi, hbit⟩ := Nat.exists_ge_and_testBit_of_ge_two_pow h
    have hlt : 2 ^ i < 2 ^ m := (Nat.ge_two_pow_of_testBit hbit).trans_lt hx
    exact ⟨i, hi, (Nat.pow_lt_pow_iff_right Nat.one_lt_two).1 hlt, hbit⟩
  · rintro ⟨i, hi, -, hbit⟩
    exact (Nat.pow_le_pow_right Nat.two_pos hi).trans (Nat.ge_two_pow_of_testBit hbit)

/-- The exact product fits twice the width (R72). -/
theorem toNat_mul_toNat_lt (a b : BitVec n) : a.toNat * b.toNat < 2 ^ (2 * n) := by
  rw [two_mul, pow_add]
  exact Nat.mul_lt_mul'' a.isLt b.isLt

/-- The wrapped product holds the low bits of the exact one (R72). -/
theorem getLsbD_mulBits (a b : BitVec n) (i : Nat) :
    (mulBits a b).getLsbD i = (decide (i < n) && (a.toNat * b.toNat).testBit i) := by
  rw [← BitVec.testBit_toNat, ← uval, uval_mulBits, Nat.testBit_mod_two_pow]
  rfl

/-- `UOVF` of MUL is 1 exactly when some discarded bit of the product is 1 (R72). -/
theorem mulUovf_iff_exists_testBit (a b : BitVec n) : mulUovf a b = true ↔
    ∃ i, n ≤ i ∧ i < 2 * n ∧ (a.toNat * b.toNat).testBit i = true :=
  (mulUovf_iff a b).trans (two_pow_le_iff_exists_testBit (toNat_mul_toNat_lt a b))

end

/-- Settles O1: `Y` by `uval_addBits`, the flags by their own equivalences. -/
theorem addGivesSumAndBothFlags : Obligations.AddGivesSumAndBothFlags :=
  ⟨rfl, fun s hwf => ⟨_, exec_add s, onlyValue_ofValue hwf .., uval_addBits .., addUovf_iff .., addSovf_iff ..⟩⟩

/-- Settles O5: `Y` by `uval_subBits`, the flags by their own equivalences. -/
theorem subGivesDifferenceAndBothFlags : Obligations.SubGivesDifferenceAndBothFlags :=
  ⟨rfl, fun s hwf => ⟨_, exec_sub s, onlyValue_ofValue hwf .., uval_subBits .., subUovf_iff .., subSovf_iff ..⟩⟩

/-- Settles O8: the low half of the product is on `Y`, and `UOVF` says that the high half is not 0. -/
theorem mulGivesProductAndBothFlags : Obligations.MulGivesProductAndBothFlags := by
  refine ⟨rfl, fun s hwf => ⟨_, exec_mul s, onlyValue_ofValue hwf .., fun i hi => ?_,
    mulUovf_iff_exists_testBit .., mulSovf_iff ..⟩⟩
  rw [ofValue_y, getLsbD_mulBits, decide_eq_true hi, Bool.true_and]

end Sys2Proof.Machine

/-! PROOF. AND, OR, XOR and NOT (O12). Each drives one value of the full width `N` with both flags 0 (`exec_and`,
`exec_or`, `exec_xor`, `exec_not`, `onlyValue_ofValue`), and that value is a bit vector operation of the library, which
acts on each position alone. -/

namespace Sys2Proof.Machine

/-- Settles O12: one clause per operation, its bits by the library's lemma about one position, and the zero result of XOR
by `BitVec.xor_eq_zero_iff`. -/
theorem bitwiseOperationsArePositionwise : Obligations.BitwiseOperationsArePositionwise := by
  refine ⟨⟨rfl, rfl, rfl, rfl⟩, fun s hwf => ⟨?and, ?or, ?xor, ?not⟩⟩
  case and => exact ⟨_, exec_and s, onlyValue_ofValue hwf .., ⟨rfl, rfl⟩, fun _ _ => BitVec.getLsbD_and⟩
  case or => exact ⟨_, exec_or s, onlyValue_ofValue hwf .., ⟨rfl, rfl⟩, fun _ _ => BitVec.getLsbD_or⟩
  case xor =>
    exact ⟨_, exec_xor s, onlyValue_ofValue hwf .., ⟨rfl, rfl⟩, fun _ _ => BitVec.getLsbD_xor,
      BitVec.xor_eq_zero_iff⟩
  case not =>
    refine ⟨_, exec_not s, onlyValue_ofValue hwf .., ⟨rfl, rfl⟩, fun i hi => ?_⟩
    rw [ofValue_y, BitVec.getLsbD_not, decide_eq_true hi, Bool.true_and]

end Sys2Proof.Machine

/-! PROOF. SHL, SHR and SAR (O14, O16). Each drives one value of the full width `N` with both flags 0 (`exec_shl`,
`exec_shr`, `exec_sar`, `onlyValue_ofValue`), and that value is built bit by bit from a line of the pseudocode: a bit
within the width is that line (`getLsbD_ofBits_of_lt`). From a count of `N` on, the line is the fill at every
position. -/

namespace Sys2Proof.Machine

section
variable {n k : Nat}

theorem getLsbD_ofBits_of_lt (f : Nat → Bool) {i : Nat} (hi : i < n) : (ofBits n f).getLsbD i = f i := by
  rw [getLsbD_ofBits, decide_eq_true hi, Bool.true_and]

/-- A value built bit by bit is any value with those bits. -/
theorem ofBits_eq_of_bits {f : Nat → Bool} {b : BitVec n} (h : ∀ i < n, f i = b.getLsbD i) : ofBits n f = b :=
  eq_of_bits fun i hi => (getLsbD_ofBits_of_lt f hi).trans (h i hi)

/-- SHL by the width or more leaves no bit of the operand (R88). -/
theorem shlBits_eq_zero_of_width_le (a : BitVec n) (hk : n ≤ k) : shlBits a k = 0 :=
  ofBits_eq_of_bits fun i hi => (if_neg (by omega)).trans BitVec.getLsbD_zero.symm

/-- SHR by the width or more leaves no bit of the operand (R88). -/
theorem shrBits_eq_zero_of_width_le (a : BitVec n) (hk : n ≤ k) : shrBits a k = 0 :=
  ofBits_eq_of_bits fun i _ => (if_neg (by omega)).trans BitVec.getLsbD_zero.symm

/-- SAR by the width or more copies the sign bit to every position (R89). -/
theorem sarBits_eq_fill_of_width_le (a : BitVec n) (hk : n ≤ k) :
    sarBits a k = if sign a then BitVec.allOnes n else 0 := by
  refine ofBits_eq_of_bits fun i hi => (if_neg (by omega)).trans ?_
  cases sign a
  · exact BitVec.getLsbD_zero.symm
  · exact (BitVec.getLsbD_allOnes.trans (decide_eq_true hi)).symm

/-- Copies of the sign bit read -1 or 0 (R89). -/
theorem toInt_sarBits_of_width_le (hn : 1 ≤ n) (a : BitVec n) (hk : n ≤ k) :
    (sarBits a k).toInt = if sign a then -1 else 0 := by
  rw [sarBits_eq_fill_of_width_le a hk]
  split
  · exact BitVec.toInt_allOnes.trans (if_pos hn)
  · exact BitVec.toInt_zero

end

/-- Settles O14: one clause per shift, each bit by the line of the pseudocode that builds the value. -/
theorem shiftsMoveBitsByTheCount : Obligations.ShiftsMoveBitsByTheCount := by
  refine ⟨⟨rfl, rfl, rfl⟩, fun s hwf => ⟨?shl, ?shr, ?sar⟩⟩
  case shl => exact ⟨_, exec_shl s, onlyValue_ofValue hwf .., ⟨rfl, rfl⟩, fun _ hi => getLsbD_ofBits_of_lt _ hi⟩
  case shr => exact ⟨_, exec_shr s, onlyValue_ofValue hwf .., ⟨rfl, rfl⟩, fun _ hi => getLsbD_ofBits_of_lt _ hi⟩
  case sar => exact ⟨_, exec_sar s, onlyValue_ofValue hwf .., ⟨rfl, rfl⟩, fun _ hi => getLsbD_ofBits_of_lt _ hi⟩

/-- Settles O16: one clause per shift, the value by what the fill of a count of `N` or more is. -/
theorem shiftsSaturateAtTheWidth : Obligations.ShiftsSaturateAtTheWidth := by
  refine fun s hwf hk => ⟨?shl, ?shr, ?sar⟩
  case shl => exact ⟨_, exec_shl s, onlyValue_ofValue hwf .., shlBits_eq_zero_of_width_le _ hk⟩
  case shr => exact ⟨_, exec_shr s, onlyValue_ofValue hwf .., shrBits_eq_zero_of_width_le _ hk⟩
  case sar =>
    exact ⟨_, exec_sar s, onlyValue_ofValue hwf .., toInt_sarBits_of_width_le (Config.Params.width_pos hwf) _ hk⟩

end Sys2Proof.Machine

/-! PROOF. SLICE (O19, O20). A legal range drives the slice and its width (`exec_slice_legal`). Each bit of `Y` is read
off `getLsbD_sliceBits`, and the width fits `YW` because it is at most `N`. Any other range raises the error
(`exec_slice_illegal`), whose detail port holds one bit per bound. Over integer indices `sliceValue` has the same two
cases, `sliceValue_of_legal` and `sliceValue_of_illegal`. -/

namespace Sys2Proof.Machine

section
variable {n hi lo : Nat}

/-- On a port at least as wide as the slice, bit `i` of the slice is bit `lo + i` of the source (R92, R95). -/
theorem getLsbD_setWidth_sliceBits_of_lt {w i : Nat} (a : BitVec n) (hw : hi - lo + 1 ≤ w) (hilt : i < hi - lo + 1) :
    ((sliceBits a hi lo).setWidth w).getLsbD i = a.getLsbD (lo + i) := by
  rw [BitVec.getLsbD_setWidth, getLsbD_sliceBits, decide_eq_true (hilt.trans_le hw), decide_eq_true hilt,
    Bool.true_and, Bool.true_and]

/-- `EINFO[0]` marks `hi < lo` (R116). -/
theorem getLsbD_zero_info_invalidRange (below beyond negative : Bool) :
    (ErrorKind.invalidRange below beyond negative).info.getLsbD 0 = below := by
  rw [ErrorKind.info, BitVec.getLsbD_append]
  simp

/-- `EINFO[1]` marks `hi >= N` (R116). -/
theorem getLsbD_one_info_invalidRange (below beyond negative : Bool) :
    (ErrorKind.invalidRange below beyond negative).info.getLsbD 1 = beyond := by
  rw [ErrorKind.info, BitVec.getLsbD_append]
  simp

end

section
variable {v : Value} {hi lo : Int}

theorem sliceRangeWellFormed_iff {n : Nat} : sliceRangeWellFormed n hi lo = true ↔ 0 ≤ lo ∧ lo ≤ hi ∧ hi < n := by
  simp [sliceRangeWellFormed, and_assoc]

theorem sliceValue_of_legal (h : 0 ≤ lo ∧ lo ≤ hi ∧ hi < v.width) :
    sliceValue v hi lo = .ok ⟨hi.toNat - lo.toNat + 1, Nat.le_add_left 1 _, sliceBits v.bits hi.toNat lo.toNat⟩ :=
  if_pos (sliceRangeWellFormed_iff.2 h)

theorem sliceValue_of_illegal (h : ¬ (0 ≤ lo ∧ lo ≤ hi ∧ hi < v.width)) :
    sliceValue v hi lo =
      .error (.invalidRange (decide (hi < lo)) (decide (v.width ≤ hi)) (decide (hi < 0) || decide (lo < 0))) :=
  if_neg (sliceRangeWellFormed_iff.not.2 h)

theorem exists_sliceValue_eq_ok_iff :
    (∃ w, sliceValue v hi lo = .ok w) ↔ 0 ≤ lo ∧ lo ≤ hi ∧ hi < v.width := by
  refine ⟨fun ⟨w, hw⟩ => ?_, fun h => ⟨_, sliceValue_of_legal h⟩⟩
  by_contra h
  cases hw.symm.trans (sliceValue_of_illegal h)

end

/-- Settles O19: the bits of `Y` below and from the slice's width on are a lemma each, and the width fits `YW`, so the
host reads back the value of that width. -/
theorem sliceReturnsTheInclusiveRange : Obligations.SliceReturnsTheInclusiveRange := by
  refine ⟨rfl, fun s hwf hle hlt => ?_⟩
  have hwidth : s.inp.hi.toNat - s.inp.lo.toNat + 1 ≤ s.params.n := by omega
  obtain ⟨-, -, -, -, hww, -, -⟩ := (wellFormed_iff _).1 hwf
  have hfits := hwidth.trans_lt hww
  exact ⟨_, exec_slice_legal s (by omega), ⟨rfl, rfl⟩, ⟨rfl, rfl⟩, hasText_nil_ofValue ..,
    Nat.mod_eq_of_lt hfits,
    fun _ hi => getLsbD_setWidth_sliceBits_of_lt _ hwidth hi,
    fun _ hi => getLsbD_setWidth_sliceBits_of_le _ hi,
    reading_ofValue _ false false (Nat.le_add_left 1 _) hfits⟩

/-- Settles O20: at the ports an error leaves nothing but its code and detail; over integer indices the two cases of
`sliceValue` exclude each other. -/
theorem illegalSliceRaisesInvalidRange : Obligations.IllegalSliceRaisesInvalidRange := by
  refine ⟨fun s _ hbad => ?_, fun v hi lo => exists_sliceValue_eq_ok_iff,
    fun v hi lo h => ⟨_, sliceValue_of_illegal h⟩⟩
  obtain ⟨hvalue, hflags, htext⟩ := only_error_ofError s.params
    (.invalidRange (decide (s.inp.hi.toNat < s.inp.lo.toNat)) (decide (s.params.n ≤ s.inp.hi.toNat)) false)
  refine ⟨_, exec_slice_illegal s hbad, rfl, hvalue, hflags, htext, ?below, ?beyond⟩
  case below => rw [ofError_einfo, getLsbD_zero_info_invalidRange, decide_eq_true_iff]
  case beyond => rw [ofError_einfo, getLsbD_one_info_invalidRange, decide_eq_true_iff]

end Sys2Proof.Machine

/-! PROOF. BIN, UDEC, SDEC, UHEX, SHEX and FMT (O23 to O28). Each drives one text and nothing else (`exec_bin` to
`exec_fmt`), because every text is at most `LFMT(N)` long and so fits the port (`onlyText_of_length_le_lfmt`). The
numerals are those of the laws, and `sdecText` and `shexText` are one numeral, that of the magnitude of the signed
reading, with or without a minus sign. -/

namespace Sys2Proof.Machine

section
variable {p : Config.Params} {n : Nat}

/-! ### Driving the texts -/

/-- A text of at most `LFMT(N)` characters fits the port, and driving it leaves nothing else there (R106, R107). -/
theorem onlyText_of_length_le_lfmt {t : Text} (hwf : p.wellFormed = true) (h : t.length ≤ lfmt p.n) :
    (Outputs.ofText p t).OnlyText t := by
  obtain ⟨-, -, -, -, -, hlanes, htlen⟩ := (wellFormed_iff p).1 hwf
  exact onlyText_ofText (by omega)

/-- Each of the five fields is driven whole. -/
theorem onlyText_fields (hwf : p.wellFormed = true) (a : BitVec p.n) :
    (Outputs.ofText p (binText a)).OnlyText (binText a) ∧ (Outputs.ofText p (udecText a)).OnlyText (udecText a) ∧
    (Outputs.ofText p (sdecText a)).OnlyText (sdecText a) ∧ (Outputs.ofText p (uhexText a)).OnlyText (uhexText a) ∧
    (Outputs.ofText p (shexText a)).OnlyText (shexText a) := by
  obtain ⟨hbin, hudec, hsdec, huhex, hshex⟩ := length_texts_le (Config.Params.width_pos hwf) a
  have drives {t : Text} := onlyText_of_length_le_lfmt (t := t) hwf
  exact ⟨drives hbin, drives hudec, drives hsdec, drives huhex, drives hshex⟩

/-! ### The magnitude of the signed reading -/

theorem sign_iff_toInt_neg (a : BitVec n) : sign a = true ↔ a.toInt < 0 := by
  rw [sign_eq_msb, BitVec.msb_eq_toInt, decide_eq_true_iff]

theorem sign_eq_false_of_nonneg {a : BitVec n} (h : 0 ≤ a.toInt) : sign a = false := by
  rw [← Bool.not_eq_true, sign_iff_toInt_neg, Int.not_lt]
  exact h

theorem uval_eq_natAbs_of_nonneg {a : BitVec n} (h : 0 ≤ a.toInt) : uval a = a.toInt.natAbs := by
  rw [← sval_eq_toInt, sval_of_sign_false (sign_eq_false_of_nonneg h), Int.natAbs_natCast]

theorem two_pow_sub_uval_eq_natAbs_of_neg {a : BitVec n} (h : a.toInt < 0) : 2 ^ n - uval a = a.toInt.natAbs := by
  have hval : a.toInt = uval a - ((2 ^ n : Nat) : Int) := by
    rw [← sval_eq_toInt, sval_of_sign_true ((sign_iff_toInt_neg a).2 h)]
    push_cast
    rfl
  omega

/-- The magnitude is at most `2^(N-1)`, whatever the sign (R103). -/
theorem natAbs_toInt_le (a : BitVec n) : a.toInt.natAbs ≤ 2 ^ (n - 1) := by
  rcases lt_or_ge a.toInt 0 with h | h
  · exact two_pow_sub_uval_eq_natAbs_of_neg h ▸ mag_le a ((sign_iff_toInt_neg a).2 h)
  · exact uval_eq_natAbs_of_nonneg h ▸ uval_le_of_sign_false a (sign_eq_false_of_nonneg h)

/-- The padded hexadecimal field holds the magnitude (R103). -/
theorem readHex_hex_natAbs_toInt (hn : 1 ≤ n) (a : BitVec n) :
    readHex (hex (hexDigits n) a.toInt.natAbs) = a.toInt.natAbs := by
  have hle := natAbs_toInt_le a
  have hlt : 2 ^ (n - 1) < 2 ^ n := Nat.pow_lt_pow_right Nat.one_lt_two (by omega)
  exact readHex_hex (lt_pow_hexDigits (by omega))

/-! ### The two signed fields, by the sign of the reading -/

theorem sdecText_of_nonneg {a : BitVec n} (h : 0 ≤ a.toInt) : sdecText a = dec a.toInt.natAbs := by
  rw [sdecText, sign_eq_false_of_nonneg h, if_neg Bool.false_ne_true, uval_eq_natAbs_of_nonneg h]

theorem sdecText_of_neg {a : BitVec n} (h : a.toInt < 0) : sdecText a = '-' :: dec a.toInt.natAbs := by
  rw [sdecText, if_pos ((sign_iff_toInt_neg a).2 h), two_pow_sub_uval_eq_natAbs_of_neg h]

theorem shexText_of_nonneg {a : BitVec n} (h : 0 ≤ a.toInt) :
    shexText a = '0' :: 'x' :: hex (hexDigits n) a.toInt.natAbs := by
  rw [shexText, sign_eq_false_of_nonneg h, if_neg Bool.false_ne_true, uhexText, uval_eq_natAbs_of_nonneg h]

theorem shexText_of_neg {a : BitVec n} (h : a.toInt < 0) :
    shexText a = '-' :: '0' :: 'x' :: hex (hexDigits n) a.toInt.natAbs := by
  rw [shexText, if_pos ((sign_iff_toInt_neg a).2 h), two_pow_sub_uval_eq_natAbs_of_neg h]

end

/-- Settles O23: the text is the numeral of the unsigned reading, which reads back as it. -/
theorem udecDrivesTheUnsignedNumeral : Obligations.UdecDrivesTheUnsignedNumeral := by
  refine ⟨rfl, fun s hwf => ?_⟩
  obtain ⟨-, hudec, -⟩ := onlyText_fields hwf s.inp.a
  exact ⟨_, _, exec_udec s, hudec, isDecNumeral_dec _, readDec_dec _, length_udecText_le _⟩

/-- Settles O24: one numeral for both signs, that of the magnitude of the signed reading. -/
theorem sdecDrivesTheSignedNumeral : Obligations.SdecDrivesTheSignedNumeral := by
  refine ⟨rfl, fun s hwf => ?_⟩
  obtain ⟨-, -, hsdec, -⟩ := onlyText_fields hwf s.inp.a
  refine ⟨_, dec s.inp.a.toInt.natAbs, exec_sdec s, isDecNumeral_dec _, fun h => ⟨?_, ?_⟩, fun h => ⟨?_, ?_⟩⟩
  · rwa [← sdecText_of_nonneg h]
  · rw [readDec_dec, Int.natAbs_of_nonneg h]
  · rwa [← sdecText_of_neg h]
  · rw [readDec_dec, Int.ofNat_natAbs_of_nonpos h.le]

/-- Settles O25: `ceil(N/4)` digits hold every unsigned reading. -/
theorem uhexDrivesThePaddedNumeral : Obligations.UhexDrivesThePaddedNumeral := by
  refine ⟨rfl, fun s hwf => ?_⟩
  obtain ⟨-, -, -, huhex, -⟩ := onlyText_fields hwf s.inp.a
  exact ⟨_, _, exec_uhex s, huhex, isHexNumeral_hex _ _,
    readHex_hex (lt_pow_hexDigits (Nat.le_sub_one_of_lt (uval_lt _)))⟩

/-- Settles O26: one padded numeral for both signs, that of the magnitude of the signed reading. -/
theorem shexDrivesTheSignedPaddedNumeral : Obligations.ShexDrivesTheSignedPaddedNumeral := by
  refine ⟨rfl, fun s hwf => ?_⟩
  obtain ⟨-, -, -, -, hshex⟩ := onlyText_fields hwf s.inp.a
  have hread := readHex_hex_natAbs_toInt (Config.Params.width_pos hwf) s.inp.a
  refine ⟨_, hex (hexDigits s.params.n) s.inp.a.toInt.natAbs, exec_shex s, isHexNumeral_hex _ _,
    fun h => ⟨?_, ?_⟩, fun h => ⟨?_, ?_, ?_, ?_⟩⟩
  · rwa [← shexText_of_nonneg h]
  · rw [hread, Int.natAbs_of_nonneg h]
  · rwa [← shexText_of_neg h]
  · rw [hread, Int.ofNat_natAbs_of_nonpos h.le]
  · rw [hread]
    exact Int.natAbs_pos.2 h.ne
  · rw [hread]
    exact natAbs_toInt_le _

/-- Settles O27: the binary field read from the right, character by character. -/
theorem binGroupsBitsInFours : Obligations.BinGroupsBitsInFours := by
  refine ⟨rfl, fun s hwf => ?_⟩
  obtain ⟨hbin, -⟩ := onlyText_fields hwf s.inp.a
  exact ⟨_, _, exec_bin s, hbin, length_binText (Config.Params.width_pos hwf) _,
    fun j hj => reverse_binFrom _ _ j (hj.trans_eq (length_binFrom _ _))⟩

/-- Settles O28: the fields are the texts the five operations drive for the same operand, and the whole fits the
port. -/
theorem fmtAssemblesTheFiveFields : Obligations.FmtAssemblesTheFiveFields := by
  refine ⟨rfl, fun s hwf => ?_⟩
  obtain ⟨hbin, hudec, hsdec, huhex, hshex⟩ := onlyText_fields hwf s.inp.a
  exact ⟨_, _, _, _, _, _, _, _, _, _, _, _, exec_fmt s, exec_bin s, hbin, exec_udec s, hudec, exec_sdec s, hsdec,
    exec_uhex s, huhex, exec_shex s, hshex, isDecNumeral_dec _, readDec_dec _,
    onlyText_of_length_le_lfmt hwf (length_fmtText_le (Config.Params.width_pos hwf) _)⟩

end Sys2Proof.Machine

/-! PROOF. The decoder and what a step runs (O33 to O36). `decode_cases` says of a word that it encodes the operation it
decodes to or is reserved; `decode_encode` is the other composition, and `decode_eq_reserved_iff` lists the fifteen
reserved words. A step is then the operation's `exec` (`step_of_decode`) or the error of a reserved word
(`step_of_reserved`). -/

namespace Sys2Proof

section
variable {op : OpWord} {i : Instr}

/-- The fifteen words of R49, as numbers. -/
abbrev reservedWords : List Nat := [3, 4, 5, 6, 7, 12, 13, 14, 15, 20, 21, 22, 23, 30, 31]

/-- Each operation's word decodes to it (R46, R48): the first part of the law `RoundTrip`. -/
theorem decode_encode (i : Instr) : decode (encode i) = .ok i := by cases i <;> rfl

/-- An operation is decoded from its own word only (R48). -/
theorem encode_of_decode (h : decode op = .ok i) : encode i = op := by
  obtain ⟨j, hj, henc⟩ | herr := decode_cases op
  · obtain rfl : i = j := Except.ok.inj (h.symm.trans hj)
    exact henc
  · cases h.symm.trans herr

theorem decode_eq_ok_iff : decode op = .ok i ↔ op = encode i :=
  ⟨fun h => (encode_of_decode h).symm, fun h => h ▸ decode_encode i⟩

/-- The reserved words (R49). -/
theorem decode_eq_reserved_iff (op : OpWord) : decode op = .error (.reserved op) ↔
    op.toNat ∈ reservedWords := by
  revert op
  decide

/-- A word that is not reserved is an operation's (R48, R49). -/
theorem exists_decode_eq_ok_of_not_reserved
    (h : op.toNat ∉ reservedWords) : ∃ i, decode op = .ok i := by
  obtain ⟨i, hi, -⟩ | herr := decode_cases op
  · exact ⟨i, hi⟩
  · exact absurd ((decode_eq_reserved_iff op).1 herr) h

/-- A word that decodes is not reserved. -/
theorem not_reserved_of_decode (h : decode op = .ok i) :
    op.toNat ∉ reservedWords := fun hmem => by
  cases h.symm.trans ((decode_eq_reserved_iff op).2 hmem)

theorem decode_of_decodeTableWord {nbits w : Nat} (h : decodeTableWord nbits w = some i) :
    decode (opOfWord nbits w) = .ok i := by
  unfold decodeTableWord at h
  split at h
  · next j hj => rw [hj, Option.some.inj h]
  · cases h

end

/-- Settles O34: both compositions, and the fifteen words the decoder refuses. -/
theorem decodeAndEncodeAreInverse : Obligations.DecodeAndEncodeAreInverse :=
  ⟨decode_encode, fun _ _ => encode_of_decode, decode_eq_reserved_iff⟩

/-- Settles O33: the decoder evaluated on the eight words. -/
theorem tableWordsDecode : Obligations.TableWordsDecode :=
  ⟨rfl, rfl, rfl, rfl, rfl, rfl, rfl, rfl⟩

end Sys2Proof

namespace Sys2Proof.Machine

/-- Settles O35: a step is `exec` of the decoded operation, and `OP` of the state after `withFetchWord` is the word. -/
theorem stepRunsTheDecodedOperation : Obligations.StepRunsTheDecodedOperation :=
  ⟨fun _ _ hwf hd => step_of_decode hwf hd,
    fun s nbits w _ hwf hw => step_of_decode (s := s.withFetchWord nbits w) hwf (decode_of_decodeTableWord hw)⟩

/-- Settles O36: the error of a reserved word, which leaves nothing else on the ports, and the step of any other word. -/
theorem reservedOpRaisesIllegalOp : Obligations.ReservedOpRaisesIllegalOp := by
  refine fun s hwf => ⟨fun hop => ?reserved, fun hop => ?operation⟩
  case reserved =>
    obtain ⟨hvalue, hflags, htext⟩ := only_error_ofError s.params .illegalOp
    exact ⟨_, step_of_reserved hwf ((decode_eq_reserved_iff _).2 hop), rfl, rfl, hvalue, hflags, htext,
      reading_ofError s.params .illegalOp⟩
  case operation =>
    obtain ⟨i, hi⟩ := exists_decode_eq_ok_of_not_reserved hop
    exact ⟨i, hi, step_of_decode hwf hi⟩

end Sys2Proof.Machine

/-! PROOF. What every step leaves on the ports (O37, O39 to O44). An operation that raises no error drives a text or a
value (`exec_drives`), and only a slice out of range raises one; each of the three kinds of outputs is legal
(`legal_ofText`, `legal_ofValue`, `legal_ofError`). The outputs are one function of the parameters and the inputs,
whatever stood on the ports and whatever the moment (`step_outputs_of_inputs`), and so is a driven transaction
(`transact_outputs`). -/

namespace Sys2Proof.Machine

section
variable {p : Config.Params} {s : State} {i : Instr} {n : Nat}

/-! ### Texts and values the block drives -/

/-- A text of the block at width `n`: not empty, of the block's alphabet, within `LFMT(N)` (R106, R107). -/
structure IsBlockText (n : Nat) (t : Text) : Prop where
  ne_nil : t ≠ []
  length_le : t.length ≤ lfmt n
  mem_alphabet : ∀ c ∈ t, c ∈ alphabet

/-- A value of `w` bits on a port of width `n`: nothing above its width, and flags at full width only (R50, R95). -/
structure IsBlockValue (y : BitVec n) (w : Nat) (u v : Bool) : Prop where
  width_pos : 1 ≤ w
  width_le : w ≤ n
  no_bit_above : ∀ i, w ≤ i → y.getLsbD i = false
  flags_full_width : u = true ∨ v = true → w = n

theorem binText_ne_nil (hn : 1 ≤ n) (a : BitVec n) : binText a ≠ [] := by
  rw [← List.length_pos_iff, length_binText hn, lbin, hexDigits]
  omega

theorem sdecText_ne_nil (a : BitVec n) : sdecText a ≠ [] := by
  unfold sdecText
  split
  · exact List.cons_ne_nil _ _
  · exact dec_ne_nil _

theorem shexText_ne_nil (a : BitVec n) : shexText a ≠ [] := by
  unfold shexText
  split <;> exact List.cons_ne_nil _ _

theorem fmtText_ne_nil (a : BitVec n) : fmtText a ≠ [] := List.cons_ne_nil _ _

/-- A format operation drives a text of the block. -/
theorem exec_isBlockText (hn : 1 ≤ s.params.n) (hi : i ∈ textOps) : ∃ t, IsBlockText s.params.n t ∧
    exec i s = .next { s with out := Outputs.ofText s.params t } := by
  obtain ⟨hbin, hudec, hsdec, huhex, hshex⟩ := length_texts_le hn s.inp.a
  cases i
  case bin => exact ⟨_, ⟨binText_ne_nil hn _, hbin, binText_mem_alphabet _⟩, exec_bin s⟩
  case udec => exact ⟨_, ⟨dec_ne_nil _, hudec, udecText_mem_alphabet _⟩, exec_udec s⟩
  case sdec => exact ⟨_, ⟨sdecText_ne_nil _, hsdec, sdecText_mem_alphabet _⟩, exec_sdec s⟩
  case uhex => exact ⟨_, ⟨List.cons_ne_nil _ _, huhex, uhexText_mem_alphabet _⟩, exec_uhex s⟩
  case shex => exact ⟨_, ⟨shexText_ne_nil _, hshex, shexText_mem_alphabet _⟩, exec_shex s⟩
  case fmt => exact ⟨_, ⟨fmtText_ne_nil _, length_fmtText_le hn _, fmtText_mem_alphabet _⟩, exec_fmt s⟩
  all_goals exact absurd hi (by decide)

theorem isBlockValue_full_width (hn : 1 ≤ n) (y : BitVec n) (u v : Bool) : IsBlockValue y n u v :=
  ⟨hn, le_rfl, fun i hi => y.getLsbD_of_ge i hi, fun _ => rfl⟩

theorem isBlockValue_slice (a : BitVec n) {hi lo : Nat} (hle : lo ≤ hi) (hlt : hi < n) :
    IsBlockValue ((sliceBits a hi lo).setWidth n) (hi - lo + 1) false false :=
  ⟨Nat.le_add_left 1 _, by omega, fun _ h => getLsbD_setWidth_sliceBits_of_le a h, by simp⟩

/-- An operation other than a slice out of range raises no error: it drives a text or a value. -/
theorem exec_drives (hn : 1 ≤ s.params.n)
    (hok : ¬ (i = .slice ∧ (s.inp.hi.toNat < s.inp.lo.toNat ∨ s.params.n ≤ s.inp.hi.toNat))) :
    (∃ t, IsBlockText s.params.n t ∧ exec i s = .next { s with out := Outputs.ofText s.params t }) ∨
    (∃ (y : BitVec s.params.n) (w : Nat) (u v : Bool), IsBlockValue y w u v ∧
      exec i s = .next { s with out := Outputs.ofValue y w u v }) := by
  by_cases htext : i ∈ textOps
  · exact .inl (exec_isBlockText hn htext)
  by_cases hslice : i = .slice
  · subst hslice
    have hrange : ¬ (s.inp.hi.toNat < s.inp.lo.toNat ∨ s.params.n ≤ s.inp.hi.toNat) := fun hbad => hok ⟨rfl, hbad⟩
    exact .inr ⟨_, _, _, _, isBlockValue_slice s.inp.a (by omega) (by omega), exec_slice_legal s hrange⟩
  · obtain ⟨y, u, v, hy, -⟩ := exec_of_notMem_slice_textOps (s := s) fun h => (List.mem_cons.1 h).elim hslice htext
    exact .inr ⟨y, _, u, v, isBlockValue_full_width hn y u v, hy⟩

/-! ### Each kind of outputs is legal -/

theorem legal_ofText {t : Text} (hwf : p.wellFormed = true) (ht : IsBlockText p.n t) : (Outputs.ofText p t).Legal := by
  obtain ⟨-, -, -, -, -, hlanes, htlen⟩ := (wellFormed_iff p).1 hwf
  obtain ⟨hne, hle, hchars⟩ := ht
  have htext : (Outputs.ofText p t).HasText t := hasText_ofText (by omega)
  obtain ⟨hlen, hlane⟩ := htext
  have hpos := List.length_pos_iff.2 hne
  constructor
  case errCode => exact .inl rfl
  case detailOnlyForRange => simp
  case errorMeansNothingElse => exact fun h => absurd rfl h
  case valueOrTextOrError =>
    refine fun _ => iff_of_true rfl fun h => ?_
    rw [h] at hlen
    exact hpos.ne (BitVec.toNat_zero.symm.trans hlen)
  case widthWithinN => simp
  case noBitAboveWidth => simp
  case flagsOnlyAtFullWidth => simp
  case textFits => exact ⟨hlen.trans_le hle, hlanes⟩
  case lanesInAlphabet =>
    intro j hj hjt
    have hj' : j < t.length := hlen ▸ hjt
    exact ⟨t[j], hchars _ (List.getElem_mem hj'), (hlane j hj).trans (dif_pos hj')⟩
  case lanesAboveAreZero => exact fun j hj => Outputs.HasText.lane_eq_zero ⟨hlen, hlane⟩ hj

theorem legal_ofValue {y : BitVec p.n} {w : Nat} {u v : Bool} (hwf : p.wellFormed = true)
    (hy : IsBlockValue y w u v) : (Outputs.ofValue y w u v : Outputs p).Legal := by
  obtain ⟨-, -, -, -, hww, hlanes, -⟩ := (wellFormed_iff p).1 hwf
  obtain ⟨hpos, hle, hbits, hflags⟩ := hy
  have hyw : (BitVec.ofNat p.ww w).toNat = w := by rw [BitVec.toNat_ofNat, Nat.mod_eq_of_lt (by omega)]
  constructor
  case errCode => exact .inl rfl
  case detailOnlyForRange => simp
  case errorMeansNothingElse => exact fun h => absurd rfl h
  case valueOrTextOrError =>
    refine fun _ => iff_of_false (fun h => ?_) fun h => h rfl
    rw [ofValue_yw] at h
    simp [h] at hyw
    omega
  case widthWithinN => exact hyw.trans_le hle
  case noBitAboveWidth => exact fun i hi => hbits i (hyw ▸ hi)
  case flagsOnlyAtFullWidth => exact fun h => hyw.trans (hflags h)
  case textFits => exact ⟨by simp, hlanes⟩
  case lanesInAlphabet => simp
  case lanesAboveAreZero => exact fun j hj _ => (hasText_nil_ofValue y w u v).lane_eq_zero hj (by simp)

theorem legal_ofError {e : ErrorKind} (hwf : p.wellFormed = true) (hcode : e.code = 4 ∨ e.code = 6)
    (hinfo : e.info ≠ 0 ↔ e.code = 4) : (Outputs.ofError p e).Legal := by
  obtain ⟨-, -, -, -, -, hlanes, -⟩ := (wellFormed_iff p).1 hwf
  have hnone := only_error_ofError p e
  constructor
  case errCode => exact .inr hcode
  case detailOnlyForRange => exact hinfo
  case errorMeansNothingElse => exact fun _ => hnone
  case valueOrTextOrError => exact fun h => absurd ((ofError_err p e).symm.trans h) (by rcases hcode with h | h <;> simp [h])
  case widthWithinN => simp
  case noBitAboveWidth => simp
  case flagsOnlyAtFullWidth => simp
  case textFits => exact ⟨by simp, hlanes⟩
  case lanesInAlphabet => simp
  case lanesAboveAreZero =>
    obtain ⟨-, -, htext⟩ := hnone
    exact fun j hj _ => htext.lane_eq_zero hj (by simp)

/-- `EINFO` of a slice out of range names at least one bound (R116). -/
theorem info_invalidRange_ne_zero {below beyond : Prop} [Decidable below] [Decidable beyond] (negative : Bool)
    (h : below ∨ beyond) : (ErrorKind.invalidRange (decide below) (decide beyond) negative).info ≠ 0 := by
  have all : ∀ x y : Bool, x = true ∨ y = true → (ErrorKind.invalidRange x y negative).info ≠ 0 := by decide +revert
  exact all _ _ (by simpa using h)

/-- A step on well-formed parameters answers a next state that differs in the outputs alone, and these are legal. -/
theorem step_next_legal (hwf : s.params.wellFormed = true) :
    ∃ o : Outputs s.params, step s = .next { s with out := o } ∧ o.Legal := by
  have hn := Config.Params.width_pos hwf
  obtain ⟨hill, -⟩ | ⟨-, i, -, hstep⟩ | ⟨-, e, -, hstep⟩ := step_cases s
  · exact absurd hwf (by simp [hill])
  · rw [hstep]
    by_cases hbad : i = .slice ∧ (s.inp.hi.toNat < s.inp.lo.toNat ∨ s.params.n ≤ s.inp.hi.toNat)
    · obtain ⟨rfl, hrange⟩ := hbad
      exact ⟨_, exec_slice_illegal s hrange,
        legal_ofError hwf (.inl rfl) (iff_of_true (info_invalidRange_ne_zero _ hrange) rfl)⟩
    · obtain ⟨t, ht, hexec⟩ | ⟨y, w, u, v, hy, hexec⟩ := exec_drives hn hbad
      · exact ⟨_, hexec, legal_ofText hwf ht⟩
      · exact ⟨_, hexec, legal_ofValue hwf hy⟩
  · exact ⟨_, hstep, legal_ofError hwf (.inr rfl) (by decide)⟩

/-- Only a step on well-formed parameters answers a next state. -/
theorem wellFormed_of_step {t : State} (h : step s = .next t) : s.params.wellFormed = true := by
  by_contra hill
  cases h.symm.trans (step_of_illegal (Bool.eq_false_iff.2 hill))

/-! ### The outputs are a function of the inputs -/

/-- `exec` reads neither the outputs nor the moment. -/
theorem exec_outputs_of_inputs (i : Instr) (inp : Inputs p) :
    ∃ o : Outputs p, ∀ out m, exec i ⟨p, inp, out, m⟩ = .next ⟨p, inp, o, m⟩ := by
  obtain ⟨o, ho⟩ := exec_next ⟨p, inp, Outputs.idle p, 0⟩ i
  refine ⟨o, fun out m => ?_⟩
  cases i
  case slice =>
    by_cases hr : inp.hi.toNat < inp.lo.toNat ∨ p.n ≤ inp.hi.toNat
    · cases ho.symm.trans (exec_slice_illegal _ hr)
      exact exec_slice_illegal ⟨p, inp, out, m⟩ hr
    · cases ho.symm.trans (exec_slice_legal _ hr)
      exact exec_slice_legal ⟨p, inp, out, m⟩ hr
  all_goals
    cases ho
    rfl

/-- Neither does a step (R32, R42). -/
theorem step_outputs_of_inputs (hwf : p.wellFormed = true) (inp : Inputs p) :
    ∃ o : Outputs p, ∀ out m, step ⟨p, inp, out, m⟩ = .next ⟨p, inp, o, m⟩ := by
  cases hd : decode inp.op with
  | ok i =>
    obtain ⟨o, ho⟩ := exec_outputs_of_inputs i inp
    exact ⟨o, fun out m => (step_of_decode (s := ⟨p, inp, out, m⟩) hwf hd).trans (ho out m)⟩
  | error e => exact ⟨Outputs.ofError p .illegalOp, fun out m => step_of_reserved (s := ⟨p, inp, out, m⟩) hwf hd⟩

/-- A transaction that fits ends in the same outputs from whatever stood on the ports before (R42). -/
theorem transact_outputs {x : Transaction} (hwf : p.wellFormed = true) (hx : x.Fits p) :
    ∃ (inp : Inputs p) (o : Outputs p), ∀ i out m,
      State.transact ⟨p, i, out, m⟩ x = .next ⟨p, inp, o, m + 1⟩ := by
  obtain ⟨inp, hinp, -⟩ := inputs_of_fits hx
  obtain ⟨o, ho⟩ := step_outputs_of_inputs hwf inp
  refine ⟨inp, o, fun i out m => ?_⟩
  rw [State.transact, drive_of_inputs (s := ⟨p, i, out, m⟩) hwf hinp]
  exact ho _ _

theorem runTransactions_cons {t : State} {x : Transaction} {xs : List Transaction} (h : s.transact x = .next t) :
    runTransactions s (x :: xs) = runTransactions t xs := by
  rw [runTransactions, h]

/-- Whatever runs before it, the last transaction decides the inputs and outputs; the moment counts all of them. -/
theorem runTransactions_append_singleton {x : Transaction} {inp : Inputs p} {o : Outputs p}
    (hwf : p.wellFormed = true) (hlast : ∀ i out m, State.transact ⟨p, i, out, m⟩ x = .next ⟨p, inp, o, m + 1⟩)
    (xs : List Transaction) (hfit : ∀ y ∈ xs, y.Fits p) (i : Inputs p) (out : Outputs p) (m : Nat) :
    runTransactions ⟨p, i, out, m⟩ (xs ++ [x]) = .next ⟨p, inp, o, m + xs.length + 1⟩ := by
  induction xs generalizing i out m with
  | nil => exact runTransactions_cons (hlast i out m)
  | cons y ys ih =>
    obtain ⟨hy, hys⟩ := List.forall_mem_cons.1 hfit
    obtain ⟨inpY, outY, hstep⟩ := transact_outputs hwf hy
    rw [List.cons_append, runTransactions_cons (hstep i out m), ih hys, List.length_cons]
    congr 2
    omega

end

/-- Settles O40: each kind of outputs a step drives is legal. -/
theorem outputsAreLegalAfterEveryStep : Obligations.OutputsAreLegalAfterEveryStep := by
  intro s t h
  have hwf := wellFormed_of_step h
  obtain ⟨o, hstep, hlegal⟩ := step_next_legal hwf
  cases h.symm.trans hstep
  exact ⟨hwf, hlegal⟩

/-- Settles O39: the three cases of a step. -/
theorem stepIsTotalAndChangesOnlyOutputs : Obligations.StepIsTotalAndChangesOnlyOutputs := by
  have total (s : State) (hwf : s.params.wellFormed = true) : ∃ o : Outputs s.params, step s = .next { s with out := o } :=
    let ⟨o, hstep, _⟩ := step_next_legal hwf
    ⟨o, hstep⟩
  refine ⟨total, fun s f hf => ?fault, fun s => ?refused⟩
  case fault =>
    cases hwf : s.params.wellFormed with
    | false => cases hf.symm.trans (step_of_illegal hwf)
    | true =>
      obtain ⟨o, hstep⟩ := total s hwf
      cases hf.symm.trans hstep
  case refused =>
    rw [← wellFormed_iff, Bool.not_eq_true]
    refine ⟨fun h => ?_, step_of_illegal⟩
    by_contra hwf
    obtain ⟨o, hstep⟩ := total s (Bool.of_not_eq_false hwf)
    cases h.symm.trans hstep

/-- Settles O37: a reserved word, a slice out of range, and every other transaction, each with its code. -/
theorem onlySliceAndReservedOpsRaiseErrors : Obligations.OnlySliceAndReservedOpsRaiseErrors := by
  intro s hwf
  have hslice {i : Instr} (hd : decode s.inp.op = .ok i) : s.inp.op = 0b10011#5 ↔ i = .slice :=
    (decode_eq_ok_iff (i := .slice)).symm.trans (by simp [hd])
  obtain ⟨hill, -⟩ | ⟨-, i, hd, hstep⟩ | ⟨-, e, hd, hstep⟩ := step_cases s
  · exact absurd hwf (by simp [hill])
  · rw [hstep, hslice hd]
    have hop := not_reserved_of_decode hd
    by_cases hbad : i = .slice ∧ (s.inp.hi.toNat < s.inp.lo.toNat ∨ s.params.n ≤ s.inp.hi.toNat)
    · obtain ⟨rfl, hrange⟩ := hbad
      exact ⟨_, exec_slice_illegal s hrange, iff_of_false (by simp [ErrorKind.code]) hop, iff_of_true rfl ⟨rfl, hrange⟩,
        .inr (.inl rfl), iff_of_true (info_invalidRange_ne_zero false hrange) rfl⟩
    · obtain ⟨t, -, hexec⟩ | ⟨y, w, u, v, -, hexec⟩ := exec_drives (Config.Params.width_pos hwf) hbad
      all_goals
        exact ⟨_, hexec, iff_of_false (by simp) hop, iff_of_false (by simp) hbad, .inl rfl, by simp⟩
  · obtain ⟨i, hi, -⟩ | herr := decode_cases s.inp.op
    · cases hd.symm.trans hi
    · have hne : s.inp.op ≠ 0b10011#5 := fun h => by rw [h] at herr; cases herr
      exact ⟨_, hstep, iff_of_true rfl ((decode_eq_reserved_iff _).1 herr),
        iff_of_false (by simp [ErrorKind.code]) fun ⟨h, _⟩ => hne h, .inr (.inr rfl),
        iff_of_false (fun h => h rfl) (by simp [ErrorKind.code])⟩

/-- Settles O42: one function of the parameters and inputs. -/
theorem outputsDependOnThePresentInputsOnly : Obligations.OutputsDependOnThePresentInputsOnly := by
  intro p inp o₁ o₂ m₁ m₂ hwf
  obtain ⟨o, ho⟩ := step_outputs_of_inputs hwf inp
  exact ⟨o, ho o₁ m₁, ho o₂ m₂⟩

/-- Settles O43: the second step has the inputs of the first. -/
theorem repeatingATransactionRepeatsItsOutputs : Obligations.RepeatingATransactionRepeatsItsOutputs := by
  intro s t h
  obtain ⟨o, ho⟩ := step_outputs_of_inputs (wellFormed_of_step h) s.inp
  cases h.symm.trans (ho s.out s.moment)
  exact ho o s.moment

/-- Settles O41: the reset state is what a step from it answers, so the invariant of every step holds of it. -/
theorem resetIsLegalAndSettled : Obligations.ResetIsLegalAndSettled :=
  have hsettled : step State.reset = .next State.reset := rfl
  ⟨outputsAreLegalAfterEveryStep _ _ hsettled, hsettled⟩

/-- Settles O44: alone or after a list, the last transaction ends in one input and one output valuation. -/
theorem theLastTransactionDecides : Obligations.TheLastTransactionDecides := by
  rintro ⟨p, i, out, m⟩ xs x hwf hfit hx
  obtain ⟨inp, o, hlast⟩ := transact_outputs hwf hx
  exact ⟨_, runTransactions_cons (hlast i out m), rfl, runTransactions_append_singleton hwf hlast xs hfit i out m⟩

end Sys2Proof.Machine

/-! PROOF. Host-side functions (O47 to O54). The accessors have one case per side of `indexLegal`, and the constructors
are `ofBits` of their bits. A two-operand operation on values of one width is its function of their bits, so a short
name of R52 and the operation it names give the same pair or the same `WidthMismatch`. The ports carry
the value-level result of every operation (`reading_ofValue`, `reading_ofText`, `reading_ofError`), and a presented
value, text or transaction is the operand unchanged or a stop. -/

namespace Sys2Proof.Machine

section
variable {n : Nat} {s : State} {i : Instr} {v : Value}

/-! ### Accessors and constructors -/

theorem indexLegal_iff {i : Int} : indexLegal n i = true ↔ 0 ≤ i ∧ i < n := by simp [indexLegal]

theorem getBit_of_legal {i : Int} (h : 0 ≤ i ∧ i < v.width) : getBit v i = .ok (v.bits.getLsbD i.toNat) :=
  if_pos (indexLegal_iff.2 h)

theorem getBit_of_illegal {i : Int} (h : ¬ (0 ≤ i ∧ i < v.width)) : getBit v i = .error (.indexOutOfBounds i) :=
  if_neg (indexLegal_iff.not.2 h)

/-- `get` of a value built bit by bit is the bit it was built with. -/
theorem getBit_ofBits {i : Int} (pos : 1 ≤ n) (f : Nat → Bool) (h : 0 ≤ i ∧ i < n) :
    getBit ⟨n, pos, ofBits n f⟩ i = .ok (f i.toNat) := by
  have hi : i.toNat < n := by omega
  exact (getBit_of_legal (v := ⟨n, pos, ofBits n f⟩) h).trans (congrArg _ (getLsbD_ofBits_of_lt f hi))

theorem setBit_of_legal {i : Int} (b : Bool) (h : 0 ≤ i ∧ i < v.width) : setBit v i b =
    .ok { v with bits := ofBits v.width fun j => if j = i.toNat then b else v.bits.getLsbD j } :=
  if_pos (indexLegal_iff.2 h)

theorem setBit_of_illegal {i : Int} (b : Bool) (h : ¬ (0 ≤ i ∧ i < v.width)) :
    setBit v i b = .error (.indexOutOfBounds i) :=
  if_neg (indexLegal_iff.not.2 h)

theorem fromBits_of_length {l : List Bool} (pos : 1 ≤ n) (h : l.length = n) :
    fromBits n pos l = .ok (ofBits n fun i => l.getD i false) := if_pos h

theorem fromBits_of_length_ne {l : List Bool} (pos : 1 ≤ n) (h : l.length ≠ n) :
    fromBits n pos l = .error (.widthMismatch n l.length) := if_neg h

/-! ### The ports carry the value-level result -/

theorem reading_ofValue_full_width {p : Config.Params} (hwf : p.wellFormed = true) (y : BitVec p.n) (u v : Bool) :
    (Outputs.ofValue y p.n u v : Outputs p).reading = .value ⟨p.n, Config.Params.width_pos hwf, y⟩ u v := by
  obtain ⟨-, -, -, -, hww, -⟩ := (wellFormed_iff p).1 hwf
  rw [reading_ofValue y u v (Config.Params.width_pos hwf) hww, BitVec.setWidth_eq]

theorem reading_ofText_of_length_le {p : Config.Params} {t : Text} (hwf : p.wellFormed = true)
    (h : t.length ≤ lfmt p.n) : (Outputs.ofText p t).reading = .text (t.map charCode) := by
  obtain ⟨-, -, -, -, -, hlanes, htlen⟩ := (wellFormed_iff p).1 hwf
  exact reading_ofText (h.trans hlanes) htlen

/-- A slice in range is read back from the port whole (R95). -/
theorem reading_slice {p : Config.Params} (hwf : p.wellFormed = true) (a : BitVec p.n) {hi lo : Nat}
    (hle : lo ≤ hi) (hlt : hi < p.n) :
    (Outputs.ofValue ((sliceBits a hi lo).setWidth p.n) (hi - lo + 1) false false : Outputs p).reading =
      .value ⟨hi - lo + 1, Nat.le_add_left 1 _, sliceBits a hi lo⟩ false false := by
  obtain ⟨-, -, -, -, hww, -⟩ := (wellFormed_iff p).1 hwf
  rw [reading_ofValue _ _ _ (Nat.le_add_left 1 _) (by omega),
    BitVec.setWidth_setWidth_of_le _ (by omega), BitVec.setWidth_eq]

/-- SLICE over the numbers on the ports, at the value level (R92, R93). -/
theorem sliceValue_natCast_of_legal {hi lo : Nat} (hle : lo ≤ hi) (hlt : hi < v.width) :
    sliceValue v hi lo = .ok ⟨hi - lo + 1, Nat.le_add_left 1 _, sliceBits v.bits hi lo⟩ :=
  sliceValue_of_legal ⟨Int.natCast_nonneg lo, by exact_mod_cast hle, by exact_mod_cast hlt⟩

theorem sliceValue_natCast_of_illegal {hi lo : Nat} (h : hi < lo ∨ v.width ≤ hi) :
    sliceValue v hi lo = .error (.invalidRange (decide (hi < lo)) (decide (v.width ≤ hi)) false) := by
  rw [sliceValue_of_illegal (by omega)]
  simp

/-- The ports after a format operation read as its text. -/
theorem reading_eq_valueOp_of_text (hwf : s.params.wellFormed = true) {t : Text} (hlen : t.length ≤ lfmt s.params.n)
    (hexec : exec i s = .next { s with out := Outputs.ofText s.params t }) {r : Except ErrorKind Result}
    (hr : r = .ok (.text t)) : ∃ o : Outputs s.params, exec i s = .next { s with out := o } ∧ o.reading = readingOf r :=
  ⟨_, hexec, (reading_ofText_of_length_le hwf hlen).trans (congrArg readingOf hr.symm)⟩

/-- The ports after an operation of full width read as its value and flags. -/
theorem reading_eq_valueOp_of_value (hwf : s.params.wellFormed = true) {y : BitVec s.params.n} {u v : Bool}
    (hexec : exec i s = .next { s with out := Outputs.ofValue y s.params.n u v }) {r : Except ErrorKind Result}
    (hr : r = .ok (.value ⟨s.params.n, Config.Params.width_pos hwf, y⟩ u v)) :
    ∃ o : Outputs s.params, exec i s = .next { s with out := o } ∧ o.reading = readingOf r :=
  ⟨_, hexec, (reading_ofValue_full_width hwf y u v).trans (congrArg readingOf hr.symm)⟩

/-- On the ports' two operands, of one width, a two-operand operation is its function of their bits. -/
theorem withSameWidth_ports {α : Type} (hwf : s.params.wellFormed = true)
    (f : (n : Nat) → 1 ≤ n → BitVec n → BitVec n → α) : withSameWidth (s.valueA hwf) (s.valueB hwf) f =
      .ok (f s.params.n (Config.Params.width_pos hwf) s.inp.a s.inp.b) :=
  withSameWidth_mk _ _ _ _ f

/-! ### Two operands of one width -/

/-- A two-operand operation is a function of the operands' bits, of their common width. -/
theorem valueOp_eq_withSameWidth (hi : i ∈ [Instr.add, .sub, .mul, .and, .or, .xor]) (a b : Value) (k : Nat)
    (upper lower : Int) : ∃ f : (n : Nat) → 1 ≤ n → BitVec n → BitVec n → Result,
      valueOp i a b k upper lower = withSameWidth a b f ∧
      ∀ n pos x y, ∃ z u v, f n pos x y = .value ⟨n, pos, z⟩ u v := by
  unfold valueOp
  cases i
  case add | sub | mul | and | or | xor => exact ⟨_, rfl, fun _ _ _ _ => ⟨_, _, _, rfl⟩⟩
  all_goals exact absurd hi (by decide)

/-- Operands of one width give the function of their bits. -/
theorem exists_withSameWidth_eq_ok {α : Type} {a b : Value} (h : a.width = b.width)
    (f : (n : Nat) → 1 ≤ n → BitVec n → BitVec n → α) :
    ∃ y : BitVec a.width, withSameWidth a b f = .ok (f a.width a.pos a.bits y) :=
  ⟨_, dif_pos h.symm⟩

/-- An operation that answers a value and two flags answers the value with either flag alone. -/
theorem withSameWidth_pairs {a b v : Value} {u w : Bool} {f : (n : Nat) → BitVec n → BitVec n → BitVec n}
    {uflag sflag : (n : Nat) → BitVec n → BitVec n → Bool}
    (h : withSameWidth a b (fun n pos x y => Result.value ⟨n, pos, f n x y⟩ (uflag n x y) (sflag n x y)) =
      .ok (.value v u w)) :
    withSameWidth a b (fun n pos x y => ((⟨n, pos, f n x y⟩ : Value), uflag n x y)) = .ok (v, u) ∧
    withSameWidth a b (fun n pos x y => ((⟨n, pos, f n x y⟩ : Value), sflag n x y)) = .ok (v, w) := by
  by_cases hw : b.width = a.width
  · rw [withSameWidth, dif_pos hw] at h
    cases h
    exact ⟨dif_pos hw, dif_pos hw⟩
  · cases h.symm.trans (withSameWidth_of_ne (Ne.symm hw))

/-- The error of a two-operand operation does not depend on the operation (R75). -/
theorem withSameWidth_eq_error {α : Type} {a b : Value} {f : (n : Nat) → 1 ≤ n → BitVec n → BitVec n → α}
    {e : ErrorKind} (h : withSameWidth a b f = .error e) {β : Type}
    (g : (n : Nat) → 1 ≤ n → BitVec n → BitVec n → β) : withSameWidth a b g = .error e := by
  by_cases hw : b.width = a.width
  · cases h.symm.trans (dif_pos hw)
  · rw [withSameWidth_of_ne (Ne.symm hw)] at h ⊢
    exact congrArg _ (Except.error.inj h)

/-- SLICE at the value level is `sliceValue`, with flags 0. -/
theorem valueOp_slice_of_ok {a b w : Value} {k : Nat} {hi lo : Int} (h : sliceValue a hi lo = .ok w) :
    valueOp .slice a b k hi lo = .ok (.value w false false) := by
  rw [valueOp, h]

theorem valueOp_slice_of_error {a b : Value} {k : Nat} {hi lo : Int} {e : ErrorKind}
    (h : sliceValue a hi lo = .error e) : valueOp .slice a b k hi lo = .error e := by
  rw [valueOp, h]

end

/-- Settles O47: the two sides of `indexLegal`; inside, each bit of the new value by its position. -/
theorem accessorsReadAndReplaceOneBit : Obligations.AccessorsReadAndReplaceOneBit := by
  intro a i b
  refine ⟨fun h => ⟨getBit_of_legal h, _, setBit_of_legal b h, rfl, ?new, fun j h0 hlt hne => ?old⟩, fun h => ?outside⟩
  case new => exact (getBit_ofBits a.pos _ h).trans (congrArg _ (if_pos rfl))
  case old =>
    rw [getBit_of_legal ⟨h0, hlt⟩]
    exact (getBit_ofBits a.pos _ ⟨h0, hlt⟩).trans (congrArg _ (if_neg (by omega)))
  case outside =>
    have hill : ¬ (0 ≤ i ∧ i < a.width) := by omega
    exact ⟨getBit_of_illegal hill, setBit_of_illegal b hill⟩

/-- Settles O48: the all-zero and all-one values of the library, and a sequence position by position. -/
theorem constructorsBuildTheirBits : Obligations.ConstructorsBuildTheirBits := by
  intro n pos
  refine ⟨?_, ?_, ?_, fun l hl => ⟨_, fromBits_of_length pos hl, fun i hi => ?_⟩, fun l => fromBits_of_length_ne pos⟩
  · rw [zeros_eq]; exact BitVec.toNat_zero
  · rw [ones_eq, BitVec.toNat_allOnes]
  · rw [ones_eq, BitVec.toInt_allOnes]
    exact if_pos pos
  · have hil : i < l.length := hl ▸ hi
    rw [getLsbD_ofBits_of_lt _ hi, List.getD_eq_getElem _ _ hil, List.getElem?_eq_getElem hil]

/-- Settles O49: the six operations share `withSameWidth`, and `ERR` of legal outputs is 0, 4 or 6. -/
theorem widthsMustMatch : Obligations.WidthsMustMatch := by
  refine ⟨fun i a b k hi lo hmem => ?values, fun s t h => ?block⟩
  case values =>
    obtain ⟨f, hop, hf⟩ := valueOp_eq_withSameWidth hmem a b k hi lo
    refine ⟨fun hne => hop.trans (withSameWidth_of_ne hne), fun heq => ?_⟩
    obtain ⟨y, hy⟩ := exists_withSameWidth_eq_ok heq f
    obtain ⟨z, u, v, hz⟩ := hf a.width a.pos a.bits y
    exact ⟨_, _, _, hop.trans (hy.trans (congrArg _ hz)), rfl⟩
  case block =>
    obtain ⟨-, hlegal⟩ := outputsAreLegalAfterEveryStep s t h
    rcases hlegal.errCode with herr | herr | herr <;> rw [herr] <;> decide

/-- Settles O50: each pair by `withSameWidth_pairs`, the slice by its two answers, the rest by definition. -/
theorem aliasesNameTheOperations : Obligations.AliasesNameTheOperations := by
  intro a b k hi lo
  refine ⟨fun v u w h => ?add, fun v u w h => ?sub, fun v u w h => ?mul, fun e h => ?mismatch,
    rfl, rfl, fun v => ?ok, fun e => ?error, rfl, rfl, fun i h0 hlt => ?bit⟩
  case add | sub | mul =>
    rw [valueOp] at h
    exact withSameWidth_pairs h
  case mismatch =>
    rw [valueOp] at h
    have every {β : Type} := withSameWidth_eq_error h (β := β)
    exact ⟨every _, every _, every _, every _, every _, every _⟩
  case ok =>
    refine ⟨valueOp_slice_of_ok, fun h => ?_⟩
    cases hs : sliceValue a hi lo with
    | ok w =>
      cases (valueOp_slice_of_ok hs).symm.trans h
      exact hs
    | error e => cases (valueOp_slice_of_error hs).symm.trans h
  case error =>
    refine ⟨valueOp_slice_of_error, fun h => ?_⟩
    cases hs : sliceValue a hi lo with
    | ok w => cases (valueOp_slice_of_ok hs).symm.trans h
    | error e =>
      cases (valueOp_slice_of_error hs).symm.trans h
      exact hs
  case bit =>
    refine ⟨_, valueOp_slice_of_ok (sliceValue_of_legal ⟨h0, le_rfl, hlt⟩), by simp, ?_⟩
    rw [getBit_of_legal ⟨h0, hlt⟩, getLsbD_sliceBits]
    simp

/-- Settles O51: operation by operation, the outputs read as the value-level result. -/
theorem portsRefineTheValueOperations : Obligations.PortsRefineTheValueOperations := by
  intro s i hwf
  have hn := Config.Params.width_pos hwf
  obtain ⟨hbin, hudec, hsdec, huhex, hshex⟩ := length_texts_le hn s.inp.a
  cases i
  case add | sub | mul | and | or | xor =>
    refine reading_eq_valueOp_of_value hwf rfl ?_
    rw [valueOp]
    exact withSameWidth_ports hwf _
  case not => exact reading_eq_valueOp_of_value hwf (exec_not s) rfl
  case shl => exact reading_eq_valueOp_of_value hwf (exec_shl s) rfl
  case shr => exact reading_eq_valueOp_of_value hwf (exec_shr s) rfl
  case sar => exact reading_eq_valueOp_of_value hwf (exec_sar s) rfl
  case slice =>
    by_cases hr : s.inp.hi.toNat < s.inp.lo.toNat ∨ s.params.n ≤ s.inp.hi.toNat
    · refine ⟨_, exec_slice_illegal s hr, (reading_ofError _ _).trans ?_⟩
      rw [valueOp_slice_of_error (sliceValue_natCast_of_illegal hr)]
      rfl
    · refine ⟨_, exec_slice_legal s hr, (reading_slice hwf _ (by omega) (by omega)).trans ?_⟩
      have hlt : s.inp.hi.toNat < s.params.n := by omega
      rw [valueOp_slice_of_ok (sliceValue_natCast_of_legal (v := s.valueA hwf) (by omega) hlt)]
      rfl
  case bin => exact reading_eq_valueOp_of_text hwf hbin (exec_bin s) rfl
  case udec => exact reading_eq_valueOp_of_text hwf hudec (exec_udec s) rfl
  case sdec => exact reading_eq_valueOp_of_text hwf hsdec (exec_sdec s) rfl
  case uhex => exact reading_eq_valueOp_of_text hwf huhex (exec_uhex s) rfl
  case shex => exact reading_eq_valueOp_of_text hwf hshex (exec_shex s) rfl
  case fmt => exact reading_eq_valueOp_of_text hwf (length_fmtText_le hn _) (exec_fmt s) rfl

/-- Settles O52: each port by the four answers of `connectTo`. -/
theorem wiringNeverChangesAWidth : Obligations.WiringNeverChangesAWidth := by
  refine ⟨fun s hwf => ⟨fun v hv => ?_, fun v hv => ?_, connectTo_ownOutput hwf, connectTo_ownOutput hwf⟩,
    fun s src hill => ⟨connectTo_of_illegal hill, connectTo_of_illegal hill⟩⟩
  · exact ⟨⟨_, _, connectTo_of_width hwf hv, BitVec.toNat_cast ..⟩, ⟨_, _, connectTo_of_width hwf hv, BitVec.toNat_cast ..⟩⟩
  · exact ⟨connectTo_of_ne hwf hv, connectTo_of_ne hwf hv⟩

/-- Settles O53: each port by the two answers of `loadTo`. -/
theorem loadingATextPresentsItsValue : Obligations.LoadingATextPresentsItsValue :=
  fun _ _ hwf => ⟨fun _ hv => ⟨⟨_, loadTo_of_ok hwf hv⟩, ⟨_, loadTo_of_ok hwf hv⟩⟩,
    fun _ he => ⟨loadTo_of_error hwf he, loadTo_of_error hwf he⟩⟩

/-- Settles O54: the inputs of a transaction that fits, and the first operand that does not. -/
theorem drivingNeverCutsAnOperand : Obligations.DrivingNeverCutsAnOperand := by
  refine fun s x hwf => ⟨fun hx => ?fits, fun ha => ?wrongA, fun ha hb => ?wrongB, fun hx => ?stop⟩
  case fits =>
    obtain ⟨inp, hinp, hports⟩ := inputs_of_fits hx
    exact ⟨inp, _, drive_of_inputs hwf hinp, hports⟩
  case wrongA =>
    refine drive_of_error hwf ?_
    rw [Transaction.inputs, operandWires_of_ne ha]
    rfl
  case wrongB =>
    refine drive_of_error hwf ?_
    rw [Transaction.inputs, operandWires_of_width ha, operandWires_of_ne hb]
    rfl
  case stop =>
    obtain ⟨f, hf⟩ := inputs_of_not_fits hx
    have hdrive := drive_of_error hwf hf
    exact ⟨f, hdrive, fun xs => by rw [runTransactions, State.transact, hdrive]⟩

end Sys2Proof.Machine

/-! PROOF. The adder's structures (O2, O3, O6). The carry chain of R65 is the library's `BitVec.carry`
(`carry_eq_bitVec_carry`), so the bits of a sum are `BitVec.getLsbD_add`, and the sign rule is one fact about the top
position (`signRule_eq_carries`). SUB is the same chain on the complement with carry-in 1
(`sub_eq_add_not_add_one`). The expanded carry of R66 satisfies the recursion of the chain
(`lookaheadCarry_succ`). -/

namespace Sys2Proof.Machine

section
variable {n : Nat} (a b : BitVec n)

/-! ### The carry chain -/

theorem carry_succ (c0 : Bool) (i : Nat) : carry a b c0 (i + 1) =
    Bool.atLeastTwo (a.getLsbD i) (b.getLsbD i) (carry a b c0 i) := rfl

/-- The chain of R65 is the library's carry. -/
theorem carry_eq_bitVec_carry (c0 : Bool) (i : Nat) : carry a b c0 i = BitVec.carry i a b c0 := by
  induction i with
  | zero => exact BitVec.carry_zero.symm
  | succ i ih => rw [carry_succ, BitVec.carry_succ, ih]

/-- The last carry is the carry out of the whole sum. -/
theorem carry_width_eq (c0 : Bool) : carry a b c0 n = decide (2 ^ n ≤ a.toNat + b.toNat + c0.toNat) := by
  rw [carry_eq_bitVec_carry, BitVec.carry, Nat.mod_eq_of_lt a.isLt, Nat.mod_eq_of_lt b.isLt]

/-- At one position: equal operand bits and another result bit say that the carries into and out of it differ. -/
theorem signRule_eq_carries (x y c : Bool) :
    ((x == y) && ((x ^^ (y ^^ c)) != x)) = (Bool.atLeastTwo x y c ^^ c) := by
  revert x y c
  decide

/-- The carries into and out of the sign position differ exactly when the signs of the operands agree and that of the
result is another. -/
theorem carries_differ_eq_signRule (hn : 1 ≤ n) (c0 : Bool) {r : BitVec n}
    (hr : ∀ i < n, r.getLsbD i = (a.getLsbD i ^^ (b.getLsbD i ^^ carry a b c0 i))) :
    (carry a b c0 n ^^ carry a b c0 (n - 1)) = ((sign a == sign b) && (sign r != sign a)) := by
  obtain ⟨m, rfl⟩ : ∃ m, n = m + 1 := ⟨n - 1, by omega⟩
  rw [sign, sign, sign, Nat.add_sub_cancel, hr m (Nat.lt_succ_self m), signRule_eq_carries, carry_succ]

theorem getLsbD_addBits {i : Nat} (hi : i < n) :
    (addBits a b).getLsbD i = (a.getLsbD i ^^ (b.getLsbD i ^^ carry a b false i)) := by
  rw [addBits_eq_add, BitVec.getLsbD_add hi, carry_eq_bitVec_carry]

theorem addUovf_eq_carry : addUovf a b = carry a b false n := by
  rw [carry_width_eq]
  rfl

theorem addSovf_eq_carries (hn : 1 ≤ n) :
    addSovf a b (addBits a b) = (carry a b false n ^^ carry a b false (n - 1)) :=
  (carries_differ_eq_signRule a b hn false fun _ hi => getLsbD_addBits a b hi).symm

/-! ### SUB on the same chain -/

/-- `a - b` is `a + ~b + 1` (R69). -/
theorem sub_eq_add_not_add_one : a - b = a + ~~~b + BitVec.setWidth n (BitVec.ofBool true) := by
  rw [BitVec.sub_eq_add_neg, BitVec.neg_eq_not_add, BitVec.add_assoc]
  congr 2
  exact BitVec.eq_of_toNat_eq (by simp)

theorem getLsbD_subBits {i : Nat} (hi : i < n) :
    (subBits a b).getLsbD i = (a.getLsbD i ^^ ((~~~b).getLsbD i ^^ carry a (~~~b) true i)) := by
  rw [subBits_eq_sub, sub_eq_add_not_add_one, BitVec.getLsbD_add_add_bool hi, carry_eq_bitVec_carry]

theorem subUovf_eq_not_carry : subUovf a b = !carry a (~~~b) true n := by
  rw [carry_eq_bitVec_carry, ← BitVec.ult_eq_not_carry]
  rfl

theorem sign_not (hn : 1 ≤ n) : sign (~~~b) = !sign b := by
  rw [sign, BitVec.getLsbD_not, decide_eq_true (by omega), Bool.true_and, sign]

theorem subSovf_eq_carries (hn : 1 ≤ n) :
    subSovf a b (subBits a b) = (carry a (~~~b) true n ^^ carry a (~~~b) true (n - 1)) := by
  rw [carries_differ_eq_signRule a (~~~b) hn true fun _ hi => getLsbD_subBits a b hi, sign_not b hn, subSovf]
  cases sign a <;> cases sign b <;> rfl

/-! ### The expanded carry -/

theorem propagatesAll_succ (lo i : Nat) : propagatesAll a b lo (i + 1) =
    (propagatesAll a b lo i && (decide (i < lo) || propagates a b i)) := by
  simp [propagatesAll, List.range_succ]

/-- There is no position from `i` on below `i`. -/
theorem propagatesAll_self (i : Nat) : propagatesAll a b i i = true := by
  simp only [propagatesAll, List.all_eq_true, List.mem_range]
  exact fun m hm => by simp [hm]

/-- A carry enters position `i + 1` when position `i` generates one or propagates the one it gets (R66). -/
theorem lookaheadCarry_succ (c0 : Bool) (i : Nat) : lookaheadCarry a b c0 (i + 1) =
    (generates a b i || propagates a b i && lookaheadCarry a b c0 i) := by
  have below : ((List.range i).any fun j => generates a b j && propagatesAll a b (j + 1) (i + 1)) =
      (((List.range i).any fun j => generates a b j && propagatesAll a b (j + 1) i) && propagates a b i) := by
    rw [List.and_any_distrib_right, Bool.eq_iff_iff, List.any_eq_true, List.any_eq_true]
    refine exists_congr fun j => and_congr_right fun hj => ?_
    have hji : ¬ i < j + 1 := Nat.not_lt.2 (List.mem_range.1 hj)
    rw [propagatesAll_succ, decide_eq_false hji, Bool.false_or, Bool.and_assoc]
  rw [lookaheadCarry, List.range_succ, List.any_append, below, List.any_cons, List.any_nil, propagatesAll_self,
    propagatesAll_succ, lookaheadCarry]
  simp only [Nat.not_lt_zero, decide_false]
  generalize List.any _ _ = g, propagates a b i = p, propagatesAll a b 0 i = q, generates a b i = h
  revert g p q h c0
  decide

theorem lookaheadCarry_eq_carry (c0 : Bool) (i : Nat) : lookaheadCarry a b c0 i = carry a b c0 i := by
  induction i with
  | zero => simp [lookaheadCarry, propagatesAll, carry]
  | succ i ih =>
    rw [lookaheadCarry_succ, ih, carry_succ, generates, propagates]
    cases a.getLsbD i <;> cases b.getLsbD i <;> cases carry a b c0 i <;> rfl

theorem lookaheadSum_eq_addBits : lookaheadSum a b false = addBits a b :=
  ofBits_eq_of_bits fun i hi => by
    rw [getLsbD_addBits a b hi, lookaheadCarry_eq_carry, propagates, Bool.xor_assoc]

end

/-- Settles O2: the bits and both flags of ADD by the chain from carry-in 0. -/
theorem addIsTheCarryChain : Obligations.AddIsTheCarryChain := fun s hwf =>
  ⟨_, exec_add s, fun _ hi => (getLsbD_addBits _ _ hi).trans (Bool.xor_assoc ..).symm, addUovf_eq_carry ..,
    addSovf_eq_carries _ _ (Config.Params.width_pos hwf)⟩

/-- Settles O6: the bits and both flags of SUB by the chain on the complement from carry-in 1. -/
theorem subIsTheAdderOnTheComplement : Obligations.SubIsTheAdderOnTheComplement := by
  refine fun s hwf => ⟨_, exec_sub s, fun i hi => ?_, subUovf_eq_not_carry ..,
    subSovf_eq_carries _ _ (Config.Params.width_pos hwf)⟩
  rw [ofValue_y, getLsbD_subBits _ _ hi, BitVec.getLsbD_not, decide_eq_true hi, Bool.true_and, Bool.xor_assoc]

/-- Settles O3: every expanded carry is the chain's, so the adder built from them is ADD. -/
theorem lookaheadAdderEqualsAdd : Obligations.LookaheadAdderEqualsAdd := by
  refine fun s hwf => ⟨fun c0 i _ => lookaheadCarry_eq_carry _ _ c0 i, _, exec_add s,
    (lookaheadSum_eq_addBits _ _).symm, ?_, ?_⟩
  · rw [lookaheadCarry_eq_carry]
    exact addUovf_eq_carry ..
  · rw [lookaheadCarry_eq_carry, lookaheadCarry_eq_carry]
    exact addSovf_eq_carries _ _ (Config.Params.width_pos hwf)

end Sys2Proof.Machine

/-! PROOF. The signed readings of ADD, SUB and MUL (O4, O7, O9). `SOVF` of each says that the exact signed result lies
outside the signed range (`addSovf_eq`, `subSovf_eq`, `mulSovf_eq`), and the signed reading of `Y` is the exact result
wrapped (`Int.bmod`): itself inside the range (`bmod_eq_self_iff`), one `2^N` off on either side of it
(`bmod_eq_sub_of_above`, `bmod_eq_add_of_below`). The shift-and-add array sums to the exact product
(`shiftAddProduct_eq`). -/

namespace Sys2Proof.Machine

section
variable {n : Nat} {a b : BitVec n} {x : Int}

/-- Outside `[-2^(N-1), 2^(N-1) - 1]`, the range of the signed reading (R9). -/
abbrev OutsideSigned (n : Nat) (x : Int) : Prop := x < -(2 ^ (n - 1)) ∨ 2 ^ (n - 1) - 1 < x

/-! ### Wrapping to the signed range -/

theorem two_pow_eq_two_mul_half (hn : 1 ≤ n) : (2 : Int) ^ n = 2 * 2 ^ (n - 1) := by
  rw [← pow_succ', Nat.sub_add_cancel hn]

/-- A number of the signed range that is a multiple of `2^N` away is the wrapped one. -/
theorem bmod_two_pow_eq_iff (hn : 1 ≤ n) {y : Int} :
    x.bmod (2 ^ n) = y ↔ ¬ OutsideSigned n y ∧ ((2 ^ n : Nat) : Int) ∣ y - x := by
  rw [Int.bmod_eq_iff (Nat.two_pow_pos n)]
  push_cast
  rw [two_pow_eq_two_mul_half hn, OutsideSigned, ← and_assoc]
  refine and_congr_left fun _ => ?_
  omega

theorem bmod_eq_self_iff (hn : 1 ≤ n) : x.bmod (2 ^ n) = x ↔ ¬ OutsideSigned n x := by
  simp [bmod_two_pow_eq_iff hn]

/-- Above the range the wrapped number is `2^N` less. -/
theorem bmod_eq_sub_of_above (hn : 1 ≤ n) (h : 2 ^ (n - 1) - 1 < x) (hlt : x < 2 ^ n) :
    x.bmod (2 ^ n) = x - 2 ^ n := by
  refine (bmod_two_pow_eq_iff hn).2 ⟨?_, ⟨-1, by push_cast; ring⟩⟩
  rw [two_pow_eq_two_mul_half hn] at hlt ⊢
  omega

/-- Below the range the wrapped number is `2^N` more. -/
theorem bmod_eq_add_of_below (hn : 1 ≤ n) (h : x < -(2 ^ (n - 1))) (hle : -(2 ^ n) ≤ x) :
    x.bmod (2 ^ n) = x + 2 ^ n := by
  refine (bmod_two_pow_eq_iff hn).2 ⟨?_, ⟨1, by push_cast; ring⟩⟩
  rw [two_pow_eq_two_mul_half hn] at hle ⊢
  omega

/-- The signed readings of two operands, as bounds. -/
theorem toInt_bounds (a : BitVec n) : -(2 ^ (n - 1)) ≤ a.toInt ∧ a.toInt < 2 ^ (n - 1) := ⟨a.le_toInt, a.toInt_lt⟩

/-! ### The results and the flags -/

theorem toInt_addBits (a b : BitVec n) : (addBits a b).toInt = (a.toInt + b.toInt).bmod (2 ^ n) := by
  rw [addBits_eq_add, BitVec.toInt_add]

theorem toInt_subBits (a b : BitVec n) : (subBits a b).toInt = (a.toInt - b.toInt).bmod (2 ^ n) := by
  rw [subBits_eq_sub, BitVec.toInt_sub]

theorem toInt_mulBits (a b : BitVec n) : (mulBits a b).toInt = (a.toInt * b.toInt).bmod (2 ^ n) := by
  rw [mulBits_eq_mul, BitVec.toInt_mul]

theorem addSovf_eq (a b : BitVec n) :
    addSovf a b (addBits a b) = decide (OutsideSigned n (a.toInt + b.toInt)) := by
  have hrule : addSovf a b (addBits a b) = a.saddOverflow b := by
    rw [addSovf, sign_eq_msb, sign_eq_msb, sign_eq_msb, addBits_eq_add, BitVec.saddOverflow_eq]
    rfl
  rw [hrule, BitVec.saddOverflow, Bool.eq_iff_iff]
  simp only [Bool.or_eq_true, decide_eq_true_eq, OutsideSigned]
  omega

theorem subSovf_eq (a b : BitVec n) :
    subSovf a b (subBits a b) = decide (OutsideSigned n (a.toInt - b.toInt)) := by
  have hrule : subSovf a b (subBits a b) = a.ssubOverflow b := by
    rw [subSovf, sign_eq_msb, sign_eq_msb, sign_eq_msb, subBits_eq_sub, BitVec.ssubOverflow_eq]
    cases a.msb <;> cases b.msb <;> cases (a - b).msb <;> rfl
  rw [hrule, BitVec.ssubOverflow, Bool.eq_iff_iff]
  simp only [Bool.or_eq_true, decide_eq_true_eq, OutsideSigned]
  omega

theorem mulSovf_eq (hn : 1 ≤ n) (a b : BitVec n) :
    mulSovf a b (mulBits a b) = decide (OutsideSigned n (a.toInt * b.toInt)) := by
  rw [Bool.eq_iff_iff, mulSovf_iff, decide_eq_true_iff, toInt_mulBits, Ne, bmod_eq_self_iff hn, not_not]

/-- The unsigned reading of ADD: what `UOVF` carries out is missing from `Y` (R67). -/
theorem toNat_addBits_eq_sub (a b : BitVec n) :
    ((addBits a b).toNat : Int) = a.toNat + b.toNat - 2 ^ n * ((addUovf a b).toNat : Int) := by
  have hsum : (addBits a b).toNat = (a.toNat + b.toNat) % 2 ^ n := uval_addBits a b
  have ha := a.isLt
  have hb := b.isLt
  cases h : addUovf a b with
  | false =>
    have hlt : a.toNat + b.toNat < 2 ^ n := by rw [← Bool.not_eq_true, addUovf_iff] at h; omega
    rw [hsum, Nat.mod_eq_of_lt hlt]
    simp
  | true =>
    have hge := (addUovf_iff a b).1 h
    rw [hsum, Nat.mod_eq_sub_mod hge, Nat.mod_eq_of_lt (by omega), Nat.cast_sub hge]
    simp

/-- SUB as signed comparison: `SOVF` exclusive or the sign of the result (R71). -/
theorem subSovf_xor_sign_iff (hn : 1 ≤ n) (a b : BitVec n) :
    (subSovf a b (subBits a b) ^^ sign (subBits a b)) = true ↔ a.toInt < b.toInt := by
  obtain ⟨ha, ha'⟩ := toInt_bounds a
  obtain ⟨hb, hb'⟩ := toInt_bounds b
  have hpow := two_pow_eq_two_mul_half hn
  have hsign := sign_iff_toInt_neg (subBits a b)
  rw [toInt_subBits] at hsign
  rw [subSovf_eq]
  by_cases hout : OutsideSigned n (a.toInt - b.toInt)
  · rw [decide_eq_true hout, Bool.true_xor, Bool.not_eq_true', ← Bool.not_eq_true, hsign]
    rcases hout with hlow | hhigh
    · rw [bmod_eq_add_of_below hn hlow (by omega)]
      omega
    · rw [bmod_eq_sub_of_above hn hhigh (by omega)]
      omega
  · rw [decide_eq_false hout, Bool.false_xor, hsign, (bmod_eq_self_iff hn).2 hout]
    omega

/-! ### Shift and add -/

/-- The array over the bits below `i` is the product with those bits of the multiplier (R73). -/
theorem shiftAddProduct_eq (a b : BitVec n) (i : Nat) : shiftAddProduct a b i = a.toNat * (b.toNat % 2 ^ i) := by
  induction i with
  | zero => simp [shiftAddProduct, Nat.mod_one]
  | succ i ih =>
    have hbit : (if b.getLsbD i then uval a * 2 ^ i else 0) = a.toNat * (2 ^ i * (b.toNat / 2 ^ i % 2)) := by
      rw [← Nat.toNat_testBit, BitVec.testBit_toNat]
      cases b.getLsbD i <;> simp [uval]
    rw [shiftAddProduct, ih, hbit, ← Nat.mul_add, Nat.mod_pow_succ]

theorem shiftAddProduct_width (a b : BitVec n) : shiftAddProduct a b n = a.toNat * b.toNat := by
  rw [shiftAddProduct_eq, Nat.mod_eq_of_lt b.isLt]

end

/-- Settles O4: the flag by its range, and the reading of `Y` inside it and on either side. -/
theorem addSignedReading : Obligations.AddSignedReading := by
  intro s hwf
  have hn := Config.Params.width_pos hwf
  obtain ⟨ha, ha'⟩ := toInt_bounds s.inp.a
  obtain ⟨hb, hb'⟩ := toInt_bounds s.inp.b
  have hpow := two_pow_eq_two_mul_half hn
  refine ⟨_, exec_add s, ?flag, ?exact, ?above, ?below, toNat_addBits_eq_sub ..⟩ <;>
    rw [ofValue_sovf, addSovf_eq]
  case flag => exact decide_eq_true_iff
  case exact => rw [ofValue_y, toInt_addBits, bmod_eq_self_iff hn, decide_eq_false_iff_not]
  case above =>
    intro hout hpos
    rw [ofValue_y, toInt_addBits]
    exact bmod_eq_sub_of_above hn ((of_decide_eq_true hout).resolve_left (by omega)) (by omega)
  case below =>
    intro hout hneg
    rw [ofValue_y, toInt_addBits]
    exact bmod_eq_add_of_below hn ((of_decide_eq_true hout).resolve_right (by omega)) (by omega)

/-- Settles O7: the flag by its range, and the three comparisons. -/
theorem subSignedReadingAndComparison : Obligations.SubSignedReadingAndComparison := by
  intro s hwf
  have hn := Config.Params.width_pos hwf
  refine ⟨_, exec_sub s, ?flag, ?exact, rfl, ?equal, subSovf_xor_sign_iff hn ..⟩
  case flag =>
    rw [ofValue_sovf, subSovf_eq]
    exact decide_eq_true_iff
  case exact =>
    rw [ofValue_sovf, ofValue_y, subSovf_eq, toInt_subBits, decide_eq_false_iff_not]
    exact (bmod_eq_self_iff hn).2
  case equal =>
    rw [ofValue_y, subBits_eq_sub]
    exact sub_eq_zero

/-- Settles O9: the flag by its range, and the array by its sum. -/
theorem mulSignedReadingAndShiftAdd : Obligations.MulSignedReadingAndShiftAdd := by
  intro s hwf
  have hn := Config.Params.width_pos hwf
  refine ⟨_, exec_mul s, ?flag, ?exact, ?product, ?carryOut⟩
  case flag =>
    rw [ofValue_sovf, mulSovf_eq hn]
    exact decide_eq_true_iff
  case exact =>
    rw [ofValue_sovf, ofValue_y, mulSovf_eq hn, toInt_mulBits, decide_eq_false_iff_not]
    exact (bmod_eq_self_iff hn).2
  case product =>
    rw [shiftAddProduct_width]
    exact uval_mulBits ..
  case carryOut =>
    rw [shiftAddProduct_width]
    exact mulUovf_iff ..

end Sys2Proof.Machine

/-! PROOF. The pairs of flags (O10, O11). What an operation with flags can drive at a width is what its two flags are on
operands of that width (`exists_exec_flags_iff`). A pair is shown by operands whose readings are known: 0, 1, -1, the
most negative value and powers of two below it. That a pair does not occur is said of widths 1 and 2 only, by evaluating
all operands. -/

namespace Sys2Proof.Machine

section
variable {n : Nat} {u v : Bool}

/-! ### From the ports to the operands -/

/-- Well-formed parameters of any width. -/
def paramsOfWidth (n : Nat) : Config.Params := { n := n, kw := 1, iw := n, ww := n, tmax := lfmt n, tlw := lfmt n }

theorem paramsOfWidth_wellFormed (hn : 1 ≤ n) : (paramsOfWidth n).wellFormed = true :=
  (wellFormed_iff _).2 ⟨hn, le_rfl, hn, Nat.lt_two_pow_self.le, Nat.lt_two_pow_self, le_rfl, Nat.lt_two_pow_self⟩

/-- Two operands on the ports, every other input 0. -/
def operandInputs {p : Config.Params} (a b : BitVec p.n) : Inputs p := { op := 0, a := a, b := b, k := 0, hi := 0, lo := 0 }

/-- The pairs of flags an operation can drive at a width are those of its flags on operands of that width. -/
theorem exists_exec_flags_iff {i : Instr} {uflag sflag : (n : Nat) → BitVec n → BitVec n → Bool}
    (hexec : ∀ s, ∃ y, exec i s = .next { s with
      out := Outputs.ofValue y s.params.n (uflag _ s.inp.a s.inp.b) (sflag _ s.inp.a s.inp.b) })
    (hn : 1 ≤ n) :
    (∃ (s : State) (o : Outputs s.params), s.params.wellFormed = true ∧ s.params.n = n ∧
      exec i s = .next { s with out := o } ∧ o.uovf = u ∧ o.sovf = v) ↔
    ∃ a b : BitVec n, uflag n a b = u ∧ sflag n a b = v := by
  constructor
  · rintro ⟨s, o, -, rfl, ho, rfl, rfl⟩
    obtain ⟨y, hy⟩ := hexec s
    obtain rfl := out_eq_of_next_eq (ho.symm.trans hy)
    exact ⟨s.inp.a, s.inp.b, rfl, rfl⟩
  · rintro ⟨a, b, rfl, rfl⟩
    obtain ⟨y, hy⟩ := hexec ⟨paramsOfWidth n, operandInputs a b, Outputs.idle _, 0⟩
    exact ⟨_, _, paramsOfWidth_wellFormed hn, rfl, hy, rfl, rfl⟩

/-! ### Operands with known readings -/

theorem two_pow_eq_two_mul_half_nat (hn : 1 ≤ n) : 2 ^ n = 2 * 2 ^ (n - 1) := by
  rw [← pow_succ', Nat.sub_add_cancel hn]

theorem two_le_half (hn : 2 ≤ n) : 2 ≤ 2 ^ (n - 1) := Nat.le_self_pow (by omega) 2

theorem natCast_two_pow (k : Nat) : ((2 ^ k : Nat) : Int) = 2 ^ k := by push_cast; rfl

/-- A number below half the range reads as itself, unsigned and signed. -/
theorem readings_ofNat (hn : 1 ≤ n) {x : Nat} (hx : x < 2 ^ (n - 1)) :
    (BitVec.ofNat n x).toNat = x ∧ (BitVec.ofNat n x).toInt = x := by
  have hpow := two_pow_eq_two_mul_half_nat hn
  have hnat : (BitVec.ofNat n x).toNat = x := by rw [BitVec.toNat_ofNat, Nat.mod_eq_of_lt (by omega)]
  exact ⟨hnat, by rw [BitVec.toInt_eq_toNat_of_lt (by omega), hnat]⟩

theorem readings_intMin (hn : 1 ≤ n) :
    (BitVec.intMin n).toNat = 2 ^ (n - 1) ∧ (BitVec.intMin n).toInt = -(2 ^ (n - 1)) :=
  ⟨BitVec.toNat_intMin_of_pos hn, BitVec.toInt_intMin_of_pos hn⟩

theorem readings_allOnes (hn : 1 ≤ n) :
    (BitVec.allOnes n).toNat = 2 ^ n - 1 ∧ (BitVec.allOnes n).toInt = -1 :=
  ⟨BitVec.toNat_allOnes, BitVec.toInt_allOnes.trans (if_pos hn)⟩

/-! ### The flags on them -/

/-- Both flags of ADD from the readings of its operands. -/
theorem add_flags {a b : BitVec n} {x y : Nat} {x' y' : Int} (ha : a.toNat = x ∧ a.toInt = x')
    (hb : b.toNat = y ∧ b.toInt = y') : addUovf a b = decide (2 ^ n ≤ x + y) ∧
      addSovf a b (addBits a b) = decide (OutsideSigned n (x' + y')) := by
  obtain ⟨⟨rfl, rfl⟩, rfl, rfl⟩ := And.intro ha hb
  exact ⟨rfl, addSovf_eq a b⟩

theorem sub_flags {a b : BitVec n} {x y : Nat} {x' y' : Int} (ha : a.toNat = x ∧ a.toInt = x')
    (hb : b.toNat = y ∧ b.toInt = y') : subUovf a b = decide (x < y) ∧
      subSovf a b (subBits a b) = decide (OutsideSigned n (x' - y')) := by
  obtain ⟨⟨rfl, rfl⟩, rfl, rfl⟩ := And.intro ha hb
  exact ⟨rfl, subSovf_eq a b⟩

theorem mul_flags (hn : 1 ≤ n) {a b : BitVec n} {x y : Nat} {x' y' : Int} (ha : a.toNat = x ∧ a.toInt = x')
    (hb : b.toNat = y ∧ b.toInt = y') : mulUovf a b = decide (2 ^ n ≤ x * y) ∧
      mulSovf a b (mulBits a b) = decide (OutsideSigned n (x' * y')) := by
  obtain ⟨⟨rfl, rfl⟩, rfl, rfl⟩ := And.intro ha hb
  exact ⟨rfl, mulSovf_eq hn a b⟩

/-! ### Which pairs occur -/

/-- Zero operands: no overflow in ADD. -/
theorem add_zero_flags (hn : 1 ≤ n) : addUovf (0#n) (0#n) = false ∧ addSovf (0#n) (0#n) (addBits 0#n 0#n) = false := by
  have hzero := readings_ofNat hn (Nat.two_pow_pos (n - 1))
  obtain ⟨hu, hs⟩ := add_flags hzero hzero
  rw [hu, hs, decide_eq_false_iff_not, decide_eq_false_iff_not]
  have hhalf : (0 : Int) < 2 ^ (n - 1) := by positivity
  exact ⟨by omega, by omega⟩

/-- The most negative value added to itself overflows in both readings. -/
theorem add_intMin_flags (hn : 1 ≤ n) : addUovf (BitVec.intMin n) (BitVec.intMin n) = true ∧
    addSovf (BitVec.intMin n) (BitVec.intMin n) (addBits (BitVec.intMin n) (BitVec.intMin n)) = true := by
  obtain ⟨hu, hs⟩ := add_flags (readings_intMin hn) (readings_intMin hn)
  rw [hu, hs, decide_eq_true_iff, decide_eq_true_iff]
  have hpow := two_pow_eq_two_mul_half_nat hn
  have hhalf : (0 : Int) < 2 ^ (n - 1) := by positivity
  exact ⟨by omega, .inl (by omega)⟩

theorem exists_add_flags_iff (hn : 1 ≤ n) :
    (∃ a b : BitVec n, addUovf a b = u ∧ addSovf a b (addBits a b) = v) ↔ 2 ≤ n ∨ u = v := by
  have hpow := two_pow_eq_two_mul_half_nat hn
  have hcast := natCast_two_pow (n - 1)
  constructor
  · rintro ⟨a, b, rfl, rfl⟩
    by_contra h
    obtain ⟨hlt, hne⟩ := not_or.1 h
    obtain rfl : n = 1 := by omega
    have width_one : ∀ a b : BitVec 1, addUovf a b = addSovf a b (addBits a b) := by decide
    exact hne (width_one a b)
  · intro h
    match u, v with
    | false, false => exact ⟨_, _, add_zero_flags hn⟩
    | true, true => exact ⟨_, _, add_intMin_flags hn⟩
    | true, false =>
      have h2 : 2 ≤ 2 ^ (n - 1) := two_le_half (by simpa using h)
      obtain ⟨hu, hs⟩ := add_flags (readings_allOnes hn) (readings_allOnes hn)
      exact ⟨_, _, hu.trans (decide_eq_true (by omega)), hs.trans (decide_eq_false (by omega))⟩
    | false, true =>
      have hquarter : 2 ^ (n - 1) = 2 * 2 ^ (n - 2) := two_pow_eq_two_mul_half_nat (by simp at h; omega)
      have hpos : 0 < 2 ^ (n - 2) := Nat.two_pow_pos _
      have hx := readings_ofNat hn (x := 2 ^ (n - 2)) (by omega)
      obtain ⟨hu, hs⟩ := add_flags hx hx
      exact ⟨_, _, hu.trans (decide_eq_false (by omega)), hs.trans (decide_eq_true (.inr (by omega)))⟩

/-- Zero minus the most negative value overflows in both readings. -/
theorem sub_zero_intMin_flags (hn : 1 ≤ n) : subUovf (0#n) (BitVec.intMin n) = true ∧
    subSovf (0#n) (BitVec.intMin n) (subBits (0#n) (BitVec.intMin n)) = true := by
  obtain ⟨hu, hs⟩ := sub_flags (readings_ofNat hn (Nat.two_pow_pos (n - 1))) (readings_intMin hn)
  rw [hu, hs, decide_eq_true_iff, decide_eq_true_iff]
  exact ⟨Nat.two_pow_pos _, .inr (by omega)⟩

/-- The most negative value minus zero overflows in neither. -/
theorem sub_intMin_zero_flags (hn : 1 ≤ n) : subUovf (BitVec.intMin n) (0#n) = false ∧
    subSovf (BitVec.intMin n) (0#n) (subBits (BitVec.intMin n) (0#n)) = false := by
  obtain ⟨hu, hs⟩ := sub_flags (readings_intMin hn) (readings_ofNat hn (Nat.two_pow_pos (n - 1)))
  rw [hu, hs, decide_eq_false_iff_not, decide_eq_false_iff_not]
  have hhalf : (0 : Int) < 2 ^ (n - 1) := by positivity
  exact ⟨Nat.not_lt_zero _, by omega⟩

theorem exists_sub_flags_iff (hn : 1 ≤ n) :
    (∃ a b : BitVec n, subUovf a b = u ∧ subSovf a b (subBits a b) = v) ↔ 2 ≤ n ∨ u = v := by
  have hcast := natCast_two_pow (n - 1)
  constructor
  · rintro ⟨a, b, rfl, rfl⟩
    by_contra h
    obtain ⟨hlt, hne⟩ := not_or.1 h
    obtain rfl : n = 1 := by omega
    have width_one : ∀ a b : BitVec 1, subUovf a b = subSovf a b (subBits a b) := by decide
    exact hne (width_one a b)
  · intro h
    match u, v with
    | false, false => exact ⟨_, _, sub_intMin_zero_flags hn⟩
    | true, true => exact ⟨_, _, sub_zero_intMin_flags hn⟩
    | true, false =>
      have h2 : 2 ≤ 2 ^ (n - 1) := two_le_half (by simpa using h)
      obtain ⟨hu, hs⟩ := sub_flags (readings_ofNat hn (x := 0) (by omega)) (readings_ofNat hn (x := 1) (by omega))
      exact ⟨_, _, hu.trans (decide_eq_true (by omega)), hs.trans (decide_eq_false (by omega))⟩
    | false, true =>
      have h2 : 2 ≤ 2 ^ (n - 1) := two_le_half (by simpa using h)
      obtain ⟨hu, hs⟩ := sub_flags (readings_intMin hn) (readings_ofNat hn (x := 1) (by omega))
      exact ⟨_, _, hu.trans (decide_eq_false (by omega)), hs.trans (decide_eq_true (.inl (by omega)))⟩

/-- Zero operands: no overflow in MUL. -/
theorem mul_zero_flags (hn : 1 ≤ n) : mulUovf (0#n) (0#n) = false ∧ mulSovf (0#n) (0#n) (mulBits 0#n 0#n) = false := by
  have hzero := readings_ofNat hn (Nat.two_pow_pos (n - 1))
  obtain ⟨hu, hs⟩ := mul_flags hn hzero hzero
  rw [hu, hs, decide_eq_false_iff_not, decide_eq_false_iff_not]
  have hhalf : (0 : Int) < 2 ^ (n - 1) := by positivity
  exact ⟨by simp, by omega⟩

/-- From width 2 on, the square of the most negative value overflows in both readings. -/
theorem mul_intMin_flags (hn : 2 ≤ n) : mulUovf (BitVec.intMin n) (BitVec.intMin n) = true ∧
    mulSovf (BitVec.intMin n) (BitVec.intMin n) (mulBits (BitVec.intMin n) (BitVec.intMin n)) = true := by
  have hmin := readings_intMin (n := n) (by omega)
  obtain ⟨hu, hs⟩ := mul_flags (by omega) hmin hmin
  rw [hu, hs, decide_eq_true_iff, decide_eq_true_iff, two_pow_eq_two_mul_half_nat (by omega)]
  have h2 := two_le_half hn
  have h2' : (2 : Int) ≤ 2 ^ (n - 1) := by exact_mod_cast h2
  exact ⟨Nat.mul_le_mul_right _ h2, .inr (by nlinarith)⟩

theorem exists_mul_flags_iff (hn : 1 ≤ n) :
    (∃ a b : BitVec n, mulUovf a b = u ∧ mulSovf a b (mulBits a b) = v) ↔
      3 ≤ n ∨ (n = 2 ∧ (u = true ∨ v = false)) ∨ (n = 1 ∧ u = false) := by
  have hcast := natCast_two_pow (n - 1)
  constructor
  · rintro ⟨a, b, rfl, rfl⟩
    obtain rfl | rfl | h : n = 1 ∨ n = 2 ∨ 3 ≤ n := by omega
    · have width_one : ∀ a b : BitVec 1, mulUovf a b = false := by decide
      exact .inr (.inr ⟨rfl, width_one a b⟩)
    · have width_two : ∀ a b : BitVec 2, mulUovf a b = true ∨ mulSovf a b (mulBits a b) = false := by decide
      exact .inr (.inl ⟨rfl, width_two a b⟩)
    · exact .inl h
  · intro h
    match u, v with
    | false, false => exact ⟨_, _, mul_zero_flags hn⟩
    | true, true => exact ⟨_, _, mul_intMin_flags (by simp at h; omega)⟩
    | true, false =>
      have hpow := two_pow_eq_two_mul_half_nat hn
      have h2 : 2 ≤ 2 ^ (n - 1) := two_le_half (by simp at h; omega)
      obtain ⟨hu, hs⟩ := mul_flags hn (readings_allOnes hn) (readings_allOnes hn)
      refine ⟨_, _, hu.trans (decide_eq_true ?_), hs.trans (decide_eq_false (by omega))⟩
      calc 2 ^ n ≤ 2 * (2 ^ n - 1) := by omega
        _ ≤ (2 ^ n - 1) * (2 ^ n - 1) := Nat.mul_le_mul_right _ (by omega)
    | false, true =>
      obtain rfl | hn3 : n = 1 ∨ 3 ≤ n := by simp at h; omega
      · exact ⟨1, 1, by decide⟩
      · have hpow := two_pow_eq_two_mul_half_nat hn
        have hquarter : 2 ^ (n - 1) = 2 * 2 ^ (n - 2) := two_pow_eq_two_mul_half_nat (by omega)
        have h2 : 2 ≤ 2 ^ (n - 2) := two_le_half (n := n - 1) (by omega)
        have hcast' := natCast_two_pow (n - 2)
        obtain ⟨hu, hs⟩ := mul_flags hn (readings_ofNat hn (x := 2 ^ (n - 2)) (by omega))
          (readings_ofNat hn (x := 2) (by omega))
        exact ⟨_, _, hu.trans (decide_eq_false (by omega)), hs.trans (decide_eq_true (.inr (by omega)))⟩

/-! ### One result, opposite flags -/

theorem addBits_intMin_self : addBits (BitVec.intMin n) (BitVec.intMin n) = addBits (0#n) (0#n) := by
  have hcancel : BitVec.intMin n + -BitVec.intMin n = 0 := add_neg_cancel _
  rw [BitVec.neg_intMin] at hcancel
  rw [addBits_eq_add, addBits_eq_add, hcancel, BitVec.add_zero]
  rfl

theorem subBits_zero_intMin : subBits (0#n) (BitVec.intMin n) = subBits (BitVec.intMin n) (0#n) := by
  simp [subBits_eq_sub, BitVec.neg_intMin]

/-- From width 2 on, the square of the most negative value wraps to 0. -/
theorem mulBits_intMin_self (hn : 2 ≤ n) : mulBits (BitVec.intMin n) (BitVec.intMin n) = mulBits (0#n) (0#n) := by
  obtain ⟨m, rfl⟩ : ∃ m, n = m + 2 := ⟨n - 2, by omega⟩
  rw [mulBits_eq_mul, mulBits_eq_mul]
  apply BitVec.eq_of_toNat_eq
  rw [BitVec.toNat_mul, BitVec.toNat_intMin_of_pos (by omega)]
  have hdvd : 2 ^ (m + 2) ∣ 2 ^ (m + 2 - 1) * 2 ^ (m + 2 - 1) := by
    rw [← pow_add]
    exact pow_dvd_pow 2 (by omega)
  rw [Nat.mod_eq_zero_of_dvd hdvd]
  simp

/-- Flags that are false on one pair of operands and true on another are no function of one result. -/
theorem exec_opposite_flags {p : Config.Params} {i : Instr} {f : BitVec p.n → BitVec p.n → BitVec p.n}
    {uflag sflag : BitVec p.n → BitVec p.n → Bool}
    (hexec : ∀ a b, exec i ⟨p, operandInputs a b, Outputs.idle p, 0⟩ = .next ⟨p, operandInputs a b,
      Outputs.ofValue (f a b) p.n (uflag a b) (sflag a b), 0⟩)
    {a b c d : BitVec p.n} (hresult : f a b = f c d) (hfalse : uflag a b = false ∧ sflag a b = false)
    (htrue : uflag c d = true ∧ sflag c d = true) :
    ∃ (x y : Inputs p) (o q : Outputs p),
      exec i ⟨p, x, Outputs.idle p, 0⟩ = .next ⟨p, x, o, 0⟩ ∧ exec i ⟨p, y, Outputs.idle p, 0⟩ = .next ⟨p, y, q, 0⟩ ∧
      o.y = q.y ∧ o.uovf ≠ q.uovf ∧ o.sovf ≠ q.sovf := by
  obtain ⟨⟨hu, hs⟩, hu', hs'⟩ := And.intro hfalse htrue
  exact ⟨_, _, _, _, hexec a b, hexec c d, hresult, by simp [hu, hu'], by simp [hs, hs']⟩

end

/-- Settles O10: each operation by its flags on operands of the width. -/
theorem flagCombinationsByWidth : Obligations.FlagCombinationsByWidth := by
  refine fun n u v hn => ⟨?add, ?sub, ?mul⟩
  case add =>
    exact (exists_exec_flags_iff (uflag := fun _ => addUovf) (sflag := fun _ a b => addSovf a b (addBits a b))
      (fun s => ⟨_, exec_add s⟩) hn).trans (exists_add_flags_iff hn)
  case sub =>
    exact (exists_exec_flags_iff (uflag := fun _ => subUovf) (sflag := fun _ a b => subSovf a b (subBits a b))
      (fun s => ⟨_, exec_sub s⟩) hn).trans (exists_sub_flags_iff hn)
  case mul =>
    exact (exists_exec_flags_iff (uflag := fun _ => mulUovf) (sflag := fun _ a b => mulSovf a b (mulBits a b))
      (fun s => ⟨_, exec_mul s⟩) hn).trans (exists_mul_flags_iff hn)

/-- Settles O11: two pairs of operands for each operation, with one result and opposite flags. -/
theorem flagsAreNoFunctionOfTheResult : Obligations.FlagsAreNoFunctionOfTheResult := by
  intro p i hwf hi
  have hn := Config.Params.width_pos hwf
  obtain rfl | rfl | ⟨rfl, hn2⟩ := hi
  · exact exec_opposite_flags (f := addBits) (uflag := addUovf) (sflag := fun a b => addSovf a b (addBits a b))
      (fun _ _ => exec_add _) addBits_intMin_self.symm (add_zero_flags hn) (add_intMin_flags hn)
  · exact exec_opposite_flags (f := subBits) (uflag := subUovf) (sflag := fun a b => subSovf a b (subBits a b))
      (fun _ _ => exec_sub _) subBits_zero_intMin.symm (sub_intMin_zero_flags hn) (sub_zero_intMin_flags hn)
  · exact exec_opposite_flags (f := mulBits) (uflag := mulUovf) (sflag := fun a b => mulSovf a b (mulBits a b))
      (fun _ _ => exec_mul _) (mulBits_intMin_self hn2).symm (mul_zero_flags hn) (mul_intMin_flags hn2)

end Sys2Proof.Machine

/-! PROOF. The numeric readings of NOT, of the shifts and of SLICE (O13, O15, O17, O18, O21, O22). The shifts are the
library's, bit by bit (`shlBits_eq`, `shrBits_eq`, `sarBits_eq`), so that their readings and their composition are
too. The stages of a barrel shifter compose to a shift by the low bits of the count (`muxStages_eq`), and a count that
they do not hold is at least the width, where the shift is the fill (`barrel_eq`). -/

namespace Sys2Proof.Machine

section
variable {n : Nat} (a : BitVec n)

/-! ### NOT -/

/-- The complement reads as minus the operand minus 1 (R81). -/
theorem toInt_not_eq (hn : 1 ≤ n) : (~~~a).toInt = -a.toInt - 1 := by
  have hlt := a.isLt
  have hpow := two_pow_eq_two_mul_half_nat hn
  rw [BitVec.toInt_eq_toNat_cond, BitVec.toInt_eq_toNat_cond, BitVec.toNat_not]
  split <;> split <;> omega

/-! ### The shifts of the library -/

theorem shlBits_eq (k : Nat) : shlBits a k = a <<< k := by
  refine ofBits_eq_of_bits fun i hi => ?_
  rw [BitVec.getLsbD_shiftLeft, decide_eq_true hi]
  by_cases h : k ≤ i
  · simp [h, Nat.not_lt.2 h]
  · simp [h, Nat.not_le.1 h]

theorem shrBits_eq (k : Nat) : shrBits a k = a >>> k := by
  refine ofBits_eq_of_bits fun i _ => ?_
  rw [BitVec.getLsbD_ushiftRight, Nat.add_comm k i]
  by_cases h : i + k < n
  · exact if_pos h
  · exact (if_neg h).trans (a.getLsbD_of_ge _ (Nat.not_lt.1 h)).symm

theorem sarBits_eq (k : Nat) : sarBits a k = a.sshiftRight k := by
  refine ofBits_eq_of_bits fun i hi => ?_
  rw [BitVec.getLsbD_sshiftRight, decide_eq_false (Nat.not_le.2 hi), Nat.add_comm k i, sign_eq_msb]
  rfl

theorem shlBits_zero : shlBits a 0 = a := by rw [shlBits_eq, BitVec.shiftLeft_zero]

theorem shrBits_zero : shrBits a 0 = a := by rw [shrBits_eq, BitVec.ushiftRight_zero]

theorem sarBits_zero : sarBits a 0 = a := by rw [sarBits_eq, BitVec.sshiftRight_zero]

theorem shlBits_shlBits (j k : Nat) : shlBits (shlBits a j) k = shlBits a (j + k) := by
  rw [shlBits_eq, shlBits_eq, shlBits_eq, BitVec.shiftLeft_add]

theorem shrBits_shrBits (j k : Nat) : shrBits (shrBits a j) k = shrBits a (j + k) := by
  rw [shrBits_eq, shrBits_eq, shrBits_eq, BitVec.shiftRight_add]

theorem sarBits_sarBits (j k : Nat) : sarBits (sarBits a j) k = sarBits a (j + k) := by
  rw [sarBits_eq, sarBits_eq, sarBits_eq, BitVec.sshiftRight_add]

/-! ### The barrel shifter -/

/-- The stages below `L` shift by the low `L` bits of the count. -/
theorem muxStages_eq {shift : BitVec n → Nat → BitVec n} (hzero : shift a 0 = a)
    (hcomp : ∀ j k, shift (shift a j) k = shift a (j + k)) (k L : Nat) :
    muxStages shift a k L = shift a (k % 2 ^ L) := by
  induction L with
  | zero => rw [pow_zero, Nat.mod_one, hzero]; rfl
  | succ L ih =>
    rw [muxStages, ih, Nat.mod_pow_succ, ← Nat.toNat_testBit]
    cases k.testBit L
    · simp
    · simp [hcomp]

/-- The stages reach every count below the width (R91). -/
theorem width_le_two_pow_barrelStages (n : Nat) : n ≤ 2 ^ barrelStages n := by
  rw [barrelStages]
  split
  · assumption
  · have := Nat.lt_log2_self (n := n - 1)
    omega

/-- A barrel shifter with the right fill is the shift. -/
theorem barrel_eq {shift : BitVec n → Nat → BitVec n} {fill : BitVec n} (hzero : shift a 0 = a)
    (hcomp : ∀ j k, shift (shift a j) k = shift a (j + k)) (hfill : ∀ k, n ≤ k → shift a k = fill) (k : Nat) :
    barrel shift fill a k = shift a k := by
  have hwidth := width_le_two_pow_barrelStages n
  unfold barrel
  split
  · next h => exact (hfill k (by omega)).symm
  · next h =>
    rw [muxStages_eq a hzero hcomp, Nat.mod_eq_of_lt (by omega)]

/-! ### SLICE -/

theorem toNat_sliceBits (hi lo : Nat) : (sliceBits a hi lo).toNat = a.toNat / 2 ^ lo % 2 ^ (hi - lo + 1) := by
  rw [sliceBits, BitVec.extractLsb'_toNat, Nat.shiftRight_eq_div_pow]

end

/-- Settles O13: the library's readings of the complement, which is the exclusive or with all ones. -/
theorem notComplementsBothReadings : Obligations.NotComplementsBothReadings := by
  refine fun s hwf => ⟨_, exec_not s, BitVec.toNat_not, toInt_not_eq _ (Config.Params.width_pos hwf), ?_⟩
  rw [exec_xor, ones_eq, BitVec.xor_allOnes]

/-- Settles O15: the library's readings of the three shifts. -/
theorem shiftsScaleByPowersOfTwo : Obligations.ShiftsScaleByPowersOfTwo := by
  refine fun s _ => ⟨⟨_, exec_shl s, ?_⟩, ⟨_, exec_shr s, ?_⟩, ⟨_, exec_sar s, ?_⟩⟩
  · rw [ofValue_y, shlBits_eq, BitVec.toNat_shiftLeft, Nat.shiftLeft_eq]
  · rw [ofValue_y, shrBits_eq, BitVec.toNat_ushiftRight, Nat.shiftRight_eq_div_pow]
  · rw [ofValue_y, sarBits_eq, BitVec.toInt_sshiftRight, Int.shiftRight_eq_div_pow, natCast_two_pow]

/-- Settles O17: each shift composes. -/
theorem shiftsCompose : Obligations.ShiftsCompose := fun _ a j k _ =>
  ⟨shlBits_shlBits a j k, shrBits_shrBits a j k, sarBits_sarBits a j k⟩

/-- Settles O18: each shift composes, starts from the operand, and ends in its fill. -/
theorem barrelShifterEqualsTheShifts : Obligations.BarrelShifterEqualsTheShifts := by
  refine fun s hwf => ⟨⟨_, exec_shl s, ?shl⟩, ⟨_, exec_shr s, ?shr⟩, ⟨_, exec_sar s, ?sar⟩⟩ <;>
    simp only [ofValue_y, zeros_eq, ones_eq]
  case shl =>
    exact (barrel_eq _ (shlBits_zero _) (shlBits_shlBits _) (fun _ => shlBits_eq_zero_of_width_le _) _).symm
  case shr =>
    exact (barrel_eq _ (shrBits_zero _) (shrBits_shrBits _) (fun _ => shrBits_eq_zero_of_width_le _) _).symm
  case sar =>
    exact (barrel_eq _ (sarBits_zero _) (sarBits_sarBits _) (fun _ => sarBits_eq_fill_of_width_le _) _).symm

/-- Settles O21: the slice is the low bits of a right shift, and its width is that of `YW`. -/
theorem sliceIsAQuotientAndRemainder : Obligations.SliceIsAQuotientAndRemainder := by
  intro s hwf hle hlt
  have hwidth : s.inp.hi.toNat - s.inp.lo.toNat + 1 ≤ s.params.n := by omega
  obtain ⟨-, -, -, -, hww, -, -⟩ := (wellFormed_iff _).1 hwf
  have hyw : (BitVec.ofNat s.params.ww (s.inp.hi.toNat - s.inp.lo.toNat + 1)).toNat =
      s.inp.hi.toNat - s.inp.lo.toNat + 1 := by rw [BitVec.toNat_ofNat, Nat.mod_eq_of_lt (by omega)]
  refine ⟨_, exec_slice_legal s (by omega), ?_, ?_⟩
  · rw [ofValue_y, BitVec.toNat_setWidth_of_le hwidth, toNat_sliceBits]
  · rw [ofValue_yw, ofValue_y, hyw, getLsbD_setWidth_sliceBits_of_lt _ hwidth (by omega)]
    congr 1
    omega

/-- Settles O22: inside the width the slice of one bit is that bit, and outside both name the index as illegal. -/
theorem singleBitSliceIsGet : Obligations.SingleBitSliceIsGet := by
  intro s hwf hsame
  obtain ⟨hn, -, -, -, hww, -, -⟩ := (wellFormed_iff _).1 hwf
  refine ⟨fun hlt => ?inside, fun hle => ?outside⟩
  case inside =>
    have hget : getBit (s.valueA hwf) s.inp.lo.toNat = .ok (s.inp.a.getLsbD s.inp.lo.toNat) :=
      getBit_of_legal (v := s.valueA hwf) ⟨Int.natCast_nonneg _, by exact_mod_cast hlt⟩
    refine ⟨_, exec_slice_legal s (by rw [hsame]; omega), ?_, ?_⟩
    · rw [ofValue_yw, hsame, Nat.sub_self, BitVec.toNat_ofNat, Nat.mod_eq_of_lt (by omega)]
    · rw [hget, ofValue_y, getLsbD_setWidth_sliceBits_of_lt _ (by rw [hsame]; omega) (by omega), Nat.add_zero]
  case outside =>
    refine ⟨_, exec_slice_illegal s (.inr (hsame ▸ hle)), rfl, ?_, ?_⟩
    · rw [ofError_einfo, hsame, decide_eq_false (Nat.lt_irrefl _), decide_eq_true hle]
      rfl
    · exact getBit_of_illegal (v := s.valueA hwf) fun ⟨_, hlt⟩ => absurd (Int.ofNat_lt.1 hlt) (Nat.not_lt.2 hle)

end Sys2Proof.Machine

/-! PROOF. The lengths of the texts, the binary field read back, and the double-dabble network (O29, O31, O32). A text
within `LFMT(N)` has its length on `TLEN` (`tlen_ofText`). A step of the network doubles the decimal number its digits
hold and adds the bit (`dabbleShift_spec`), so the network ends with the digits of the operand (`dabble_spec`), and
those without their leading zeros are the numeral (`map_digitChar_suppressZeros`). -/

namespace Sys2Proof.Machine

section
variable {n : Nat}

/-! ### The length on `TLEN` -/

theorem tlen_ofText {p : Config.Params} {t : Text} (hwf : p.wellFormed = true) (h : t.length ≤ lfmt p.n) :
    (Outputs.ofText p t).tlen.toNat = t.length := by
  obtain ⟨⟨hlen, -⟩, -⟩ := onlyText_of_length_le_lfmt hwf h
  exact hlen

/-! ### The binary field read back -/

/-- The significant characters of the binary field are the bits, high to low. -/
theorem significant_binText (a : BitVec n) :
    significant (binText a) = (List.range n).reverse.map fun j => bitChar (a.getLsbD j) :=
  filter_binFrom (by decide) (by decide) (by decide) a n

theorem bitChar_eq_one_iff (b : Bool) : bitChar b = '1' ↔ b = true := by cases b <;> decide

theorem bitChar_digit (b : Bool) : bitChar b = '0' ∨ bitChar b = '1' := by cases b <;> decide

theorem parse_binText (pos : 1 ≤ n) (a : BitVec n) : parse n pos (binText a) = .ok a := by
  rw [parse_eq_ok_iff, significant_binText]
  refine ⟨fun c hc => ?digits, by simp, fun i hi => ?bits⟩
  case digits =>
    obtain ⟨j, -, rfl⟩ := List.mem_map.1 hc
    exact bitChar_digit _
  case bits =>
    have hback : n - 1 - (n - 1 - i) = i := by omega
    have hget : (List.range n).reverse[n - 1 - i]? = some i := by
      rw [List.getElem?_reverse (by rw [List.length_range]; omega), List.length_range, hback, List.getElem?_range hi]
    rw [List.getElem?_map, hget, Option.map_some, Option.some.injEq, bitChar_eq_one_iff]

/-! ### The double-dabble network -/

/-- The decimal number of BCD digits, least significant first. -/
abbrev bcdValue (ds : List Nat) : Nat := Nat.ofDigits 10 ds

theorem bcdValue_cons (d : Nat) (ds : List Nat) : bcdValue (d :: ds) = d + 10 * bcdValue ds := rfl

/-- One digit of the network: with the bit shifted out of it, it holds twice the digit and the bit shifted in. -/
theorem dabble_digit (c : Bool) {d : Nat} (hd : d < 10) :
    (2 * (if 5 ≤ d then d + 3 else d) + c.toNat) % 16 < 10 ∧
    (2 * (if 5 ≤ d then d + 3 else d) + c.toNat) % 16 +
      10 * (decide (16 ≤ 2 * (if 5 ≤ d then d + 3 else d) + c.toNat)).toNat = 2 * d + c.toNat := by
  have all : ∀ c : Bool, ∀ d < 10, (2 * (if 5 ≤ d then d + 3 else d) + c.toNat) % 16 < 10 ∧
      (2 * (if 5 ≤ d then d + 3 else d) + c.toNat) % 16 +
        10 * (decide (16 ≤ 2 * (if 5 ≤ d then d + 3 else d) + c.toNat)).toNat = 2 * d + c.toNat := by decide
  exact all c d hd

/-- A step of the network keeps decimal digits, doubles their number and adds the bit (R111). -/
theorem dabbleShift_spec (c : Bool) (ds : List Nat) (h : ∀ d ∈ ds, d < 10) :
    (dabbleShift c ds).length = ds.length ∧ (∀ d ∈ dabbleShift c ds, d < 10) ∧
    bcdValue (dabbleShift c ds) = (2 * bcdValue ds + c.toNat) % 10 ^ ds.length := by
  induction ds generalizing c with
  | nil => simp [dabbleShift, Nat.mod_one]
  | cons d ds ih =>
    obtain ⟨hd, hds⟩ := List.forall_mem_cons.1 h
    obtain ⟨hlt, hsum⟩ := dabble_digit c hd
    rw [dabbleShift]
    generalize decide (16 ≤ _) = out, (2 * (if 5 ≤ d then d + 3 else d) + c.toNat) % 16 = e at hlt hsum ⊢
    obtain ⟨hlen, hdig, hval⟩ := ih out hds
    refine ⟨by rw [List.length_cons, List.length_cons, hlen], List.forall_mem_cons.2 ⟨hlt, hdig⟩, ?_⟩
    have hdouble : 2 * bcdValue (d :: ds) + c.toNat = e + 10 * (2 * bcdValue ds + out.toNat) := by
      rw [bcdValue_cons]
      omega
    rw [bcdValue_cons, hval, hdouble, List.length_cons, pow_succ', Nat.mod_mul, Nat.add_mul_mod_self_left,
      Nat.mod_eq_of_lt hlt, Nat.add_mul_div_left _ _ (by norm_num), Nat.div_eq_of_lt hlt, Nat.zero_add]

/-- The network shifts the bits below `i` into the number its digits hold. -/
theorem dabble_spec (a : BitVec n) (i : Nat) (ds : List Nat) (h : ∀ d ∈ ds, d < 10) :
    (dabble a i ds).length = ds.length ∧ (∀ d ∈ dabble a i ds, d < 10) ∧
    bcdValue (dabble a i ds) ≡ bcdValue ds * 2 ^ i + a.toNat % 2 ^ i [MOD 10 ^ ds.length] := by
  induction i generalizing ds with
  | zero => exact ⟨rfl, h, by rw [dabble, pow_zero, Nat.mod_one, mul_one, add_zero]⟩
  | succ i ih =>
    obtain ⟨hlen, hdig, hval⟩ := dabbleShift_spec (a.getLsbD i) ds h
    obtain ⟨hlen', hdig', hval'⟩ := ih _ hdig
    refine ⟨hlen'.trans hlen, hdig', ?_⟩
    rw [hlen] at hval'
    have hbit : a.toNat % 2 ^ (i + 1) = a.toNat % 2 ^ i + 2 ^ i * (a.getLsbD i).toNat := by
      rw [Nat.mod_pow_succ, ← Nat.toNat_testBit, BitVec.testBit_toNat]
    have hstep : bcdValue (dabbleShift (a.getLsbD i) ds) ≡ 2 * bcdValue ds + (a.getLsbD i).toNat [MOD 10 ^ ds.length] :=
      hval ▸ Nat.mod_modEq _ _
    calc bcdValue (dabble a (i + 1) ds)
      _ ≡ bcdValue (dabbleShift (a.getLsbD i) ds) * 2 ^ i + a.toNat % 2 ^ i [MOD 10 ^ ds.length] := hval'
      _ ≡ (2 * bcdValue ds + (a.getLsbD i).toNat) * 2 ^ i + a.toNat % 2 ^ i [MOD 10 ^ ds.length] :=
        (hstep.mul_right _).add_right _
      _ = bcdValue ds * 2 ^ (i + 1) + a.toNat % 2 ^ (i + 1) := by rw [hbit]; ring

theorem replicate_zero_digits (k : Nat) : ∀ d ∈ List.replicate k 0, d < 10 := fun d hd => by
  rw [List.eq_of_mem_replicate hd]
  norm_num

/-! ### Leading zeros -/

/-- The numeral of a positive number, by the library's digits. -/
theorem dec_eq_map_digits {x : Nat} (hx : x ≠ 0) : dec x = (Nat.digits 10 x).reverse.map digitChar := by
  induction x using dec_induction with
  | small x hlt => rw [dec_of_lt hlt, Nat.digits_of_lt 10 x hx hlt]; rfl
  | step x hge ih =>
    have hdigits : Nat.digits 10 x = x % 10 :: Nat.digits 10 (x / 10) := Nat.digits_def' (by norm_num) (by omega)
    rw [dec_of_ge hge, ih (by omega), hdigits, List.reverse_cons, List.map_append]
    rfl

/-- Without its leading zeros a list of decimal digits, most significant first, is the numeral of its number. -/
theorem map_digitChar_suppressZeros (ds : List Nat) (hne : ds ≠ []) (h : ∀ d ∈ ds, d < 10) :
    (suppressZeros ds).map digitChar = dec (bcdValue ds.reverse) := by
  induction ds using suppressZeros.induct with
  | case1 => exact absurd rfl hne
  | case2 d =>
    obtain ⟨hd, -⟩ := List.forall_mem_cons.1 h
    simp [suppressZeros, bcdValue, dec_of_lt hd]
  | case3 e ds ih =>
    obtain ⟨-, hds⟩ := List.forall_mem_cons.1 h
    rw [suppressZeros, if_pos rfl, ih (List.cons_ne_nil _ _) hds, bcdValue, bcdValue, Nat.ofDigits_reverse_zero_cons]
  | case4 d e ds hd =>
    have hdigits : Nat.digits 10 (bcdValue (d :: e :: ds).reverse) = (d :: e :: ds).reverse :=
      Nat.digits_ofDigits 10 (by norm_num) _ (fun x hx => h x (List.mem_reverse.1 hx))
        fun _ => by rwa [List.getLast_reverse]
    have hpos : bcdValue (d :: e :: ds).reverse ≠ 0 := fun h0 => by
      rw [h0, Nat.digits_zero] at hdigits
      exact absurd hdigits.symm (List.reverse_ne_nil_iff.2 (List.cons_ne_nil _ _))
    rw [suppressZeros, if_neg hd, dec_eq_map_digits hpos, hdigits, List.reverse_reverse]

/-- The network ends with the digits of the operand: it has enough of them for every value of the width. -/
theorem bcdValue_dabble (a : BitVec n) :
    bcdValue (dabble a n (List.replicate (digits (2 ^ n - 1)) 0)) = a.toNat := by
  obtain ⟨hlen, hdig, hval⟩ := dabble_spec a n _ (replicate_zero_digits (digits (2 ^ n - 1)))
  have hzero : bcdValue (List.replicate (digits (2 ^ n - 1)) 0) = 0 := Nat.ofDigits_replicate_zero
  rw [hzero, zero_mul, zero_add, Nat.mod_eq_of_lt a.isLt] at hval
  have hlt := Nat.ofDigits_lt_base_pow_length (by norm_num) hdig
  rw [hlen] at hlt
  have hfit : a.toNat < 10 ^ digits (2 ^ n - 1) :=
    (Nat.le_sub_one_of_lt a.isLt).trans_lt (lt_pow_digits _)
  exact hval.eq_of_lt_of_lt hlt (by rwa [List.length_replicate])

/-- The network's text is the numeral of the operand. -/
theorem dabbleText_eq (a : BitVec n) : dabbleText a = udecText a := by
  obtain ⟨hlen, hdig, -⟩ := dabble_spec a n _ (replicate_zero_digits (digits (2 ^ n - 1)))
  rw [List.length_replicate] at hlen
  have hne := List.ne_nil_of_length_pos (hlen.symm ▸ digits_pos (2 ^ n - 1))
  rw [dabbleText, map_digitChar_suppressZeros _ (List.reverse_ne_nil_iff.2 hne) fun d hd => hdig d (List.mem_reverse.1 hd),
    List.reverse_reverse, bcdValue_dabble]
  rfl

end

/-- Settles O29: the lengths of the six texts, each on `TLEN`. -/
theorem textLengthsFitThePort : Obligations.TextLengthsFitThePort := by
  intro s hwf
  obtain ⟨hn, -, -, -, -, hlanes, -⟩ := (wellFormed_iff _).1 hwf
  obtain ⟨hbin, hudec, hsdec, huhex, hshex⟩ := length_texts_le hn s.inp.a
  have hfmt := length_fmtText_le hn s.inp.a
  refine ⟨⟨_, exec_bin s, ?_⟩, ⟨_, exec_udec s, ?_⟩, ⟨_, exec_sdec s, ?_⟩, ⟨_, exec_uhex s, ?_⟩, ⟨_, exec_shex s, ?_⟩,
    ⟨_, exec_fmt s, ?_, hlanes⟩⟩
  · exact (tlen_ofText hwf hbin).trans (length_binText hn _)
  · rw [tlen_ofText hwf hudec]
    exact ⟨digits_pos _, length_udecText_le _⟩
  · rw [tlen_ofText hwf hsdec]
    exact ⟨List.length_pos_iff.2 (sdecText_ne_nil _), length_sdecText_le _⟩
  · exact (tlen_ofText hwf huhex).trans (length_uhexText _)
  · exact (tlen_ofText hwf hshex).trans (length_shexText _)
  · exact (tlen_ofText hwf hfmt).trans_le hfmt

/-- Settles O31: the parser reads the bits of the field back. -/
theorem parsingTheBinaryFieldGivesTheOperand : Obligations.ParsingTheBinaryFieldGivesTheOperand := by
  intro s hwf
  obtain ⟨hbin, -⟩ := onlyText_fields hwf s.inp.a
  exact ⟨_, _, exec_bin s, hbin, parse_binText _ _⟩

/-- Settles O32: the network's text is the one UDEC drives. -/
theorem doubleDabbleEqualsUdec : Obligations.DoubleDabbleEqualsUdec := by
  intro s hwf
  obtain ⟨-, hudec, -⟩ := onlyText_fields hwf s.inp.a
  exact ⟨_, exec_udec s, (dabbleText_eq s.inp.a).symm ▸ hudec⟩

end Sys2Proof.Machine
